-- ==== Sys2Proof/Word.lean ====
section
/-! DEFINITION. The two bit-vector types of the block: the 32-bit word of the command port, the time
input and the delay (00_scope.md R9), and the 8-bit byte of a buffer row, an operand field, a character
and a bus byte (R7, R9). -/

namespace Sys2Proof

/-- A 32-bit word: a command or data word, a time value, a delay. 00_scope.md R9. -/
abbrev Word := BitVec 32

/-- An 8-bit value: a buffer row, an operand field, a character code, a byte on the bus. 00_scope.md R7, R9. -/
abbrev Byte := BitVec 8

end Sys2Proof
end

