-- ==== Sys2Proof/Syntax.lean ====
section
/-! DEFINITION. The twelve commands of the block, one constructor for each row of spec/opcode_table.json,
with their operands (30_encoding.md R62, R63), and the pseudo-instructions that expand to them (R77). -/

namespace Sys2Proof

/-- A command with its operands. Every operand is an unsigned immediate (30_encoding.md R63); 8-bit fields keep
out-of-range coordinates expressible (20_memory.md R44). -/
inductive Instr where
  /-- Write one digit. 40_buffer_codec.md R81. -/
  | setDigit (display position pattern : Byte) (dot : Bool)
  /-- Write one digit by unified position. 40_buffer_codec.md R83. -/
  | setDigit16 (position16 pattern : Byte) (dot : Bool)
  /-- Blank one display. 40_buffer_codec.md R84. -/
  | clearDisplay (display : Byte)
  /-- Zero the buffer. 40_buffer_codec.md R85. -/
  | clearAll
  /-- Light every lamp. 40_buffer_codec.md R86. -/
  | fillAll
  /-- Show a text on one display; `text` is the N characters of the data words. 41_device_state.md R100,
  30_encoding.md R65. -/
  | writeString (display : Byte) (text : List Byte)
  /-- Send the buffer to the chip. 41_device_state.md R103. -/
  | flush
  /-- Store and send a brightness level. 41_device_state.md R104. -/
  | setBrightness (level : Byte)
  /-- Start the display chip. 41_device_state.md R106. -/
  | configure
  /-- Arm a non-blocking fade. 42_fade_controller.md R121. -/
  | fadeStart (delay : Word)
  /-- Poll the non-blocking fade once. 42_fade_controller.md R122. -/
  | fadeTick
  /-- Run a whole fade before accepting another command. 42_fade_controller.md R126. -/
  | fadeBlocking (delay : Word)
  deriving DecidableEq, Repr

/-- The pseudo-instructions, all the spec's own. 30_encoding.md R77. -/
inductive Pseudo where
  | blankDigit (display position : Byte)
  | blankDigit16 (position16 : Byte)
  | brightMax
  deriving DecidableEq, Repr

/-- The expansion of a pseudo-instruction. 30_encoding.md R77. -/
def Pseudo.expand : Pseudo → Instr
  | .blankDigit display position => .setDigit display position 0 false
  | .blankDigit16 position16 => .setDigit16 position16 0 false
  | .brightMax => .setBrightness 15

end Sys2Proof
end

