-- ==== Sys2Proof/WellFormed.lean ====
section
/-! DEFINITION. Which instruction terms are commands of the block. Every operand but one has its field's width
as its type; the text of writeString must fit the 8-bit length N (30_encoding.md R63, 00_scope.md R9). -/

namespace Sys2Proof

/-- The instruction is one the encoding can carry: a text of "at most 255 characters" (00_scope.md R9). -/
def Instr.wellFormed : Instr → Bool
  | .setDigit _ _ _ _ => true
  | .setDigit16 _ _ _ => true
  | .clearDisplay _ => true
  | .clearAll => true
  | .fillAll => true
  | .writeString _ text => decide (text.length ≤ 255)
  | .flush => true
  | .setBrightness _ => true
  | .configure => true
  | .fadeStart _ => true
  | .fadeTick => true
  | .fadeBlocking _ => true

end Sys2Proof
end

