-- ==== Sys2Proof/Decode.lean ====
section
/-! DEFINITION. The decoder of the command stream, total on every list of words (30_encoding.md R60 to R70),
and after it the encoder, written from the same tables, and the two readings of one opcode-table word. -/

namespace Sys2Proof

/-! ## The opcode table -/

/-- The assigned opcodes, in the order of 30_encoding.md R62. -/
inductive Op where
  | setDigit | setDigit16 | clearDisplay | clearAll | fillAll | writeString
  | flush | setBrightness | configure | fadeStart | fadeTick | fadeBlocking
  deriving DecidableEq, Repr

/-- Every assigned opcode once. -/
def Op.all : List Op :=
  [.setDigit, .setDigit16, .clearDisplay, .clearAll, .fillAll, .writeString,
   .flush, .setBrightness, .configure, .fadeStart, .fadeTick, .fadeBlocking]

/-- The opcode of a command, bits [31:28] of its word. 30_encoding.md R62. -/
def Op.code : Op → BitVec 4
  | .setDigit => 0x1
  | .setDigit16 => 0x2
  | .clearDisplay => 0x3
  | .clearAll => 0x4
  | .fillAll => 0x5
  | .writeString => 0x6
  | .flush => 0x7
  | .setBrightness => 0x8
  | .configure => 0x9
  | .fadeStart => 0xA
  | .fadeTick => 0xB
  | .fadeBlocking => 0xC

/-- The command with an opcode; the reserved opcodes 0x0, 0xD, 0xE and 0xF have none. 30_encoding.md R62, R67. -/
def opOfCode (c : BitVec 4) : Option Op :=
  Op.all.find? fun x => x.code == c

/-- `match_X`. 30_encoding.md R62. -/
def Op.matchWord : Op → Word
  | .setDigit => 0x10000000
  | .setDigit16 => 0x20000000
  | .clearDisplay => 0x30000000
  | .clearAll => 0x40000000
  | .fillAll => 0x50000000
  | .writeString => 0x60000000
  | .flush => 0x70000000
  | .setBrightness => 0x80000000
  | .configure => 0x90000000
  | .fadeStart => 0xA0000000
  | .fadeTick => 0xB0000000
  | .fadeBlocking => 0xC0000000

/-- `mask_X`. 30_encoding.md R62. -/
def Op.mask : Op → Word
  | .setDigit => 0xFE000000
  | .setDigit16 => 0xFEFF0000
  | .clearDisplay => 0xFF00FFFF
  | .clearAll => 0xFFFFFFFF
  | .fillAll => 0xFFFFFFFF
  | .writeString => 0xFF00FF00
  | .flush => 0xFFFFFFFF
  | .setBrightness => 0xFFFFFF00
  | .configure => 0xFFFFFFFF
  | .fadeStart => 0xFFFFFFFF
  | .fadeTick => 0xFFFFFFFF
  | .fadeBlocking => 0xFFFFFFFF

/-- The word is command X: `(w & mask_X) = match_X`. 30_encoding.md R62. -/
def Op.accepts (x : Op) (w : Word) : Bool := (w &&& x.mask) == x.matchWord

/-! ## Fields and lengths -/

/-- `op`, bits [31:28]. 30_encoding.md R61. -/
def fieldOp (w : Word) : BitVec 4 := w.extractLsb' 28 4
/-- `D`, bit [24], the dot flag. 30_encoding.md R61. -/
def fieldD (w : Word) : Bool := w.getLsbD 24
/-- `A`, bits [23:16]. 30_encoding.md R61. -/
def fieldA (w : Word) : Byte := w.extractLsb' 16 8
/-- `B`, bits [15:8]. 30_encoding.md R61. -/
def fieldB (w : Word) : Byte := w.extractLsb' 8 8
/-- `C`, bits [7:0]. 30_encoding.md R61. -/
def fieldC (w : Word) : Byte := w.extractLsb' 0 8

/-- How many data words N characters take: ceil(N/4). 30_encoding.md R64. -/
def textWordCount (n : Nat) : Nat := (n + 3) / 4

/-- The number of words of a command, "a function of the command word alone, computed before any legality
check". 30_encoding.md R64. -/
def commandLength (w : Word) : Nat :=
  if fieldOp w = 0x6 then 1 + textWordCount (fieldC w).toNat
  else if fieldOp w = 0xA ∨ fieldOp w = 0xC then 2
  else 1

/-- Character `i` of a text: bits [8*(i%4)+7 : 8*(i%4)] of data word `i / 4` (the data words counted from 0
here, from 1 in the rule). 30_encoding.md R65. -/
def charAt (ds : List Word) (i : Nat) : Byte := (ds.getD (i / 4) 0).extractLsb' (8 * (i % 4)) 8

/-- The N characters of a text; padding bytes are ignored. 30_encoding.md R65. -/
def textOf (n : Nat) (ds : List Word) : List Byte := (List.range n).map (charAt ds)

/-- The command X with the operands of its word and data words. 30_encoding.md R63, R65, R66. -/
def Op.operands (x : Op) (w : Word) (ds : List Word) : Instr :=
  match x with
  | .setDigit => .setDigit (fieldA w) (fieldB w) (fieldC w) (fieldD w)
  | .setDigit16 => .setDigit16 (fieldB w) (fieldC w) (fieldD w)
  | .clearDisplay => .clearDisplay (fieldA w)
  | .clearAll => .clearAll
  | .fillAll => .fillAll
  | .writeString => .writeString (fieldA w) (textOf (fieldC w).toNat ds)
  | .flush => .flush
  | .setBrightness => .setBrightness (fieldC w)
  | .configure => .configure
  | .fadeStart => .fadeStart (ds.getD 0 0)
  | .fadeTick => .fadeTick
  | .fadeBlocking => .fadeBlocking (ds.getD 0 0)

/-! ## The decoder -/

/-- Why a command word is illegal. -/
inductive IllegalCause where
  /-- One of the opcodes 0x0, 0xD, 0xE, 0xF. 30_encoding.md R67. -/
  | reservedOpcode
  /-- An assigned opcode with a reserved bit that is not zero. 30_encoding.md R68. -/
  | reservedBits
  deriving DecidableEq, Repr

/-- What the words at the head of the command stream are. -/
inductive Decoded where
  /-- A whole command of `n` words. -/
  | command (i : Instr) (n : Nat)
  /-- An IllegalCommand, which consumes `n` words. 30_encoding.md R64, 60_exceptions.md R142. -/
  | illegal (why : IllegalCause) (n : Nat)
  /-- Not all words of the command have arrived. 30_encoding.md R64. -/
  | incomplete
  deriving DecidableEq, Repr

/-- The decoder of R70 on a command word and its data words. 30_encoding.md R67, R68, R70. -/
def decodeWord (w : Word) (ds : List Word) : Except IllegalCause Instr :=
  match opOfCode (fieldOp w) with
  | none => .error .reservedOpcode
  | some x => if x.accepts w then .ok (x.operands w ds) else .error .reservedBits

/-- Decode the head of the command stream: count the command's words, wait for all of them, then decode.
30_encoding.md R64, R70. -/
def decode (ws : List Word) : Decoded :=
  match ws with
  | [] => .incomplete
  | w :: ds =>
    if ds.length + 1 < commandLength w then .incomplete
    else
      match decodeWord w (ds.take (commandLength w - 1)) with
      | .ok i => .command i (commandLength w)
      | .error why => .illegal why (commandLength w)

/-! ## The encoder -/

/-- A command word from its fields, bits [27:25] zero. 30_encoding.md R61. -/
def commandWord (op : BitVec 4) (d : Bool) (a b c : Byte) : Word :=
  op.setWidth 32 <<< 28 ||| (BitVec.ofBool d).setWidth 32 <<< 24 ||| a.setWidth 32 <<< 16 |||
    b.setWidth 32 <<< 8 ||| c.setWidth 32

/-- Four characters as a data word, the first in the lowest byte. 30_encoding.md R65. -/
def packWord (c0 c1 c2 c3 : Byte) : Word :=
  c3.setWidth 32 <<< 24 ||| c2.setWidth 32 <<< 16 ||| c1.setWidth 32 <<< 8 ||| c0.setWidth 32

/-- The data words of a text, padded with zero bytes. 30_encoding.md R65. -/
def textWords (text : List Byte) : List Word :=
  (List.range (textWordCount text.length)).map fun j =>
    packWord (text.getD (4 * j) 0) (text.getD (4 * j + 1) 0) (text.getD (4 * j + 2) 0) (text.getD (4 * j + 3) 0)

/-- The words of an instruction. 30_encoding.md R62, R63, R65, R66. -/
def encode : Instr → List Word
  | .setDigit display position pattern dot => [commandWord 0x1 dot display position pattern]
  | .setDigit16 position16 pattern dot => [commandWord 0x2 dot 0 position16 pattern]
  | .clearDisplay display => [commandWord 0x3 false display 0 0]
  | .clearAll => [commandWord 0x4 false 0 0 0]
  | .fillAll => [commandWord 0x5 false 0 0 0]
  | .writeString display text =>
    commandWord 0x6 false display 0 (BitVec.ofNat 8 text.length) :: textWords text
  | .flush => [commandWord 0x7 false 0 0 0]
  | .setBrightness level => [commandWord 0x8 false 0 0 level]
  | .configure => [commandWord 0x9 false 0 0 0]
  | .fadeStart delay => [commandWord 0xA false 0 0 0, delay]
  | .fadeTick => [commandWord 0xB false 0 0 0]
  | .fadeBlocking delay => [commandWord 0xC false 0 0 0, delay]

/-! ## One word of the opcode table -/

/-- The longest command: writeString with N = 255, 1 + 64 words. 30_encoding.md R64. -/
def longestCommand : Nat := 65

/-- An instruction given as one number, bit 0 the least significant bit of its first word and later words' bits
counting on; the bits above `nbits` are 0. -/
def tableWords (nbits w : Nat) : List Word :=
  (List.range longestCommand).map fun k => BitVec.ofNat 32 ((w % 2 ^ nbits) >>> (32 * k))

/-- The same words cut to the command's own length, as they stand on the command port. 30_encoding.md R64. -/
def tableCommand (nbits w : Nat) : List Word :=
  (tableWords nbits w).take (commandLength ((tableWords nbits w).getD 0 0))

/-- The instruction the decoder reads from a word of the opcode table. -/
def decodeTableWord (nbits w : Nat) : Option Instr :=
  match decode (tableWords nbits w) with
  | .command i _ => some i
  | .illegal _ _ => none
  | .incomplete => none

end Sys2Proof
end

