-- ==== Sys2Proof/Config.lean ====
section
/-! DEFINITION. What is fixed for an instance of the block (the named parameters of 00_scope.md R8 and
R10) and the two free values of its environment (the answer of a bus transaction, 60_exceptions.md R147;
the value of the time input, 10_state.md R30). -/

namespace Sys2Proof

/-- The environment's answer to one bus transaction: "returns `ok` or `err`". 60_exceptions.md R147. -/
inductive BusAnswer where
  | ok
  | err
  deriving DecidableEq, Repr, Inhabited

/-- The parameters of an instance. 00_scope.md R8, R10. The model takes them as data, so a statement about
every state is a statement about every choice of them. -/
structure Config where
  /-- `I2C_ADDR`, the 7-bit bus address of the display chip. R8. -/
  i2cAddr : BitVec 7
  /-- `OSC_ON_CMD`, the oscillator-enable command. R8, R73. -/
  oscOnCmd : Byte
  /-- `DISP_ON_CMD`, the display-enable command. R8, R73. -/
  dispOnCmd : Byte
  /-- The upper nibble of `BRIGHT_BASE`; R8 requires the lower nibble to be 0, so it is not stored. -/
  brightBaseHigh : BitVec 4
  /-- The entries of `GLYPH` other than those R10 fixes: (character, segment pattern), the first entry of a
  character counting. A character without an entry is not recognized. R10. -/
  glyphs : List (Byte × BitVec 7)
  deriving DecidableEq, Repr

namespace Config

/-- `BRIGHT_BASE`, with `BRIGHT_BASE[3:0] = 0` by construction. 00_scope.md R8. -/
def brightBase (c : Config) : Byte := c.brightBaseHigh ++ 0#4

/-- FREE VALUE: the environment's answer to the n-th transaction for which State lists no reply. "a free input
of the environment (in a model: a draw, under no law)", 60_exceptions.md R147. No body: nothing is known of it.
Assumption log 2. -/
opaque freeAnswer : Nat → BusAnswer

/-- FREE VALUE: the value of the time input at the n-th step for which State lists no turn of the environment.
"any value (each `now` is an input)", 93_implementation_defined.md I8. No body. Assumption log 1. -/
opaque freeTime : Nat → Word

end Config

end Sys2Proof
end

