-- ==== Sys2Proof/Machine/Defaults.lean ====
section
/-! DEFINITION. The default values of the open parameters, used by State.reset only: "Values a reader may use",
92_eei_decisions.md D9 and D11. Assumption logs 5 and 6. -/

namespace Sys2Proof.Machine

/-- The spec's default glyph table, "the plain 0-9 digit table": the entries beside '1' and '2'.
92_eei_decisions.md D11. PRESUMED: those entries are general knowledge, not source (G2). -/
def digitGlyphs : List (Byte × BitVec 7) :=
  [(0x30, 0x3F), (0x33, 0x4F), (0x34, 0x66), (0x35, 0x6D), (0x36, 0x7D), (0x37, 0x07), (0x38, 0x7F), (0x39, 0x6F)]

/-- The parameter values of D9 for the HT16K33 chip (address 0x70, oscillator on 0x21, display on 0x81,
brightness base 0xE0) with the table of D11. PRESUMED (general knowledge, G1). -/
def defaultConfig : Config where
  i2cAddr := 0x70
  oscOnCmd := 0x21
  dispOnCmd := 0x81
  brightBaseHigh := 0xE
  glyphs := digitGlyphs

end Sys2Proof.Machine
end

