-- ==== Sys2Proof/Machine/State.lean ====
section
/-! DEFINITION. The state of the block as plain data (10_state.md R20 to R36), with its ports' inputs and outputs,
the reasons a step can stop, and the state after reset. -/

namespace Sys2Proof.Machine

/-- The state of the fade controller; the value 0b11 "is unreachable; a model may leave it out of its type".
10_state.md R25, R36. -/
inductive FadeState where
  | idle
  | fadingOut
  | fadingIn
  deriving DecidableEq, Repr

/-- The status on the result port. 10_state.md R31, 60_exceptions.md R144. -/
inductive Status where
  | ok
  | transportError
  | illegalCommand
  deriving DecidableEq, Repr

/-- What the environment does with a transaction: answer `ok`, answer `err`, or never answer ("leaves the block
waiting"). 60_exceptions.md R147. -/
inductive BusReply where
  | ok
  | err
  | never
  deriving DecidableEq, Repr

/-- One event on an output port. -/
inductive Output where
  /-- A transaction on the bus port, with what the environment did with it. 60_exceptions.md R147. -/
  | bus (addr : BitVec 7) (bytes : List Byte) (reply : BusReply)
  /-- One write of the result port. 10_state.md R31. -/
  | result (status : Status) (fading : Bool)
  deriving DecidableEq, Repr

/-- What the environment does at one step. -/
inductive Turn where
  /-- The reset event, which "may occur between any two steps". 70_reset_and_hazards.md R160. -/
  | reset
  /-- The value of the time input during the step and the words newly offered on the command port.
  10_state.md R30. -/
  | run (now : Word) (words : List Word)
  deriving DecidableEq, Repr

/-- The display buffer as (row, byte) cells, rows strictly rising, no cell holding the 0x00 an unlisted row reads
as (`Memory.wf`). 10_state.md R23; assumption log 11. -/
abbrev Memory := List Host.Cell

/-- The read-only view of the observation port. 10_state.md R33. -/
structure Observation where
  buf : Memory
  brightness : BitVec 4
  fadeState : FadeState
  deriving DecidableEq, Repr

/-- The state of the block and of its ports. -/
structure State where
  /-- The display buffer. 10_state.md R23. -/
  buf : Memory
  /-- The last brightness level set. 10_state.md R24. -/
  brightness : BitVec 4
  /-- The state of the fade controller. 10_state.md R25. -/
  fadeState : FadeState
  /-- The brightness the next fade step applies. 10_state.md R26. -/
  step : BitVec 4
  /-- The time input at the last transition. 10_state.md R27. -/
  last : Word
  /-- The minimum time between two fade transitions. 10_state.md R28. -/
  delay : Word
  /-- A fadeBlocking command is executing. 10_state.md R29. -/
  blocking : Bool
  /-- The pseudocode variable `err` of the running fadeBlocking: some transaction was answered `err`.
  42_fade_controller.md R126; assumption log 7. -/
  blockErr : Bool
  /-- The block waits for a bus answer that never comes; what the observation port then shows.
  60_exceptions.md R147, 10_state.md R33; assumption log 3. -/
  hung : Option Observation
  /-- The words received of a command not yet whole. 30_encoding.md R64, 70_reset_and_hazards.md R160. -/
  received : List Word
  /-- The words offered on the command port and not yet taken, the oldest first. 10_state.md R30. -/
  offered : List Word
  /-- The present value of the time input. 10_state.md R30. -/
  now : Word
  /-- Everything driven on the bus port and the result port, the oldest first. 10_state.md R30, R31. -/
  outputs : List Output
  /-- The model's own: the instance's parameters, written by no step. 00_scope.md R8, R10; assumption log 5. -/
  cfg : Config
  /-- The model's own: what the environment does at the coming steps. Assumption log 1. -/
  turns : List Turn
  /-- The model's own: the environment's replies to the coming transactions. Assumption log 2. -/
  busReplies : List BusReply
  /-- The model's own: how many free time values have been drawn. Assumption log 1. -/
  timeDraws : Nat
  /-- The model's own: how many free bus answers have been drawn. Assumption log 2. -/
  busDraws : Nat
  deriving DecidableEq, Repr

/-- The reasons the machine stops with a fault: none. "There is no trap entry and no trap return"
(60_exceptions.md R146); every abnormal event ends its command with a status or is ignored (R140), and a hang is
a state, "not a fault" (93_implementation_defined.md I9). Nobody raises one, so nothing unsafe hides in it. -/
inductive Fault where
  deriving DecidableEq, Repr

/-- The reasons an instruction is refused. -/
inductive Refusal where
  /-- Raised by a refused arm of `exec` for an instruction without a meaning (none is left): safe, the run stops. -/
  | notModelled (mnemonic : String)
  deriving DecidableEq, Repr

/-- The state after reset: the values of 10_state.md R34, no words received or offered, nothing driven, the
default parameters, nothing said of the environment. Assumption logs 1, 2, 4, 5, 6, 7, 12, 15. -/
def State.reset : State where
  buf := []
  brightness := 0
  fadeState := .idle
  step := 0
  last := 0
  delay := 0
  blocking := false
  blockErr := false
  hung := none
  received := []
  offered := []
  now := 0
  outputs := []
  cfg := defaultConfig
  turns := []
  busReplies := []
  timeDraws := 0
  busDraws := 0

end Sys2Proof.Machine
end

