-- ==== Sys2Proof/Machine/Flags.lean ====
section
/-! DEFINITION. The block's one flag and its codes: the `fading` bit (10_state.md R32), the status of a bus answer
(60_exceptions.md R143, R145), the elapsed test (42_fade_controller.md R125), and the codes of the status and of
`fadeState` (60_exceptions.md R144, 10_state.md R25). -/

namespace Sys2Proof.Machine

/-- The `fading` bit: "1 if `fadeState ≠ Idle`". 10_state.md R32. -/
def fading (s : State) : Bool := s.fadeState != .idle

/-- The code of a status on the result port, 2 bits. 60_exceptions.md R144. -/
def Status.code : Status → BitVec 2
  | .ok => 0
  | .transportError => 1
  | .illegalCommand => 2

/-- The 2-bit encoding of `fadeState`. 10_state.md R25. -/
def FadeState.code : FadeState → BitVec 2
  | .idle => 0b00
  | .fadingOut => 0b01
  | .fadingIn => 0b10

/-- The status of a command whose transactions came to this reply; `never` ends no command.
60_exceptions.md R143. -/
def transportStatus : BusReply → Status
  | .ok => .ok
  | .err => .transportError
  | .never => .transportError

/-- The reply of two answered transactions together: "r1 = err or r2 = err". 42_fade_controller.md R123. -/
def BusReply.both : BusReply → BusReply → BusReply
  | .ok, r => r
  | .err, .never => .never
  | .err, _ => .err
  | .never, _ => .never

/-- `E(now)`: `((now - last) mod 2^32) ≥ delay`. 42_fade_controller.md R125. -/
def elapsed (s : State) : Bool := decide (s.delay ≤ s.now - s.last)

end Sys2Proof.Machine
end

