-- ==== Sys2Proof/Machine/Operands.lean ====
section
/-! DEFINITION. What a command makes of its operands: the address decoder (20_memory.md R43 to R46), the clamped
brightness level (41_device_state.md R105), the glyph lookup (00_scope.md R10), and the bytes of the four bus
payloads (30_encoding.md R71 to R74). -/

namespace Sys2Proof.Machine

/-! ## The address decoder -/

/-- `row(d, s) = d * 8 + s`, 4 bits. 20_memory.md R43. -/
def row (d : BitVec 1) (s : BitVec 3) : BitVec 4 := d ++ s

/-- `mask(p) = 1 << p`, the one-hot column mask. 20_memory.md R43. -/
def mask (p : BitVec 3) : Byte := 1#8 <<< p

/-- The coordinate of 8-bit operands, none where it is invalid: valid "iff `d < 2` and `p < 8`". 20_memory.md R44. -/
def coord (d p : Byte) : Option (BitVec 1 × BitVec 3) :=
  if d < 2 ∧ p < 8 then some (d.setWidth 1, p.setWidth 3) else none

/-- The lamp of bit `k` of row `r`: display `r / 8`, position `k`, sub-row `r % 8`. 20_memory.md R46. -/
def lampOf (r : BitVec 4) (k : BitVec 3) : BitVec 1 × BitVec 3 × BitVec 3 :=
  (r.extractLsb' 3 1, k, r.extractLsb' 0 3)

/-- The sub-rows and the positions of a display block, 0 to 7. 20_memory.md R43. -/
def eight : List (BitVec 3) := [0, 1, 2, 3, 4, 5, 6, 7]

/-- The segment sub-rows a to g, 0 to 6. 10_state.md R23. -/
def segments : List (BitVec 3) := [0, 1, 2, 3, 4, 5, 6]

/-- The sub-row of the decimal point. 10_state.md R23. -/
def dotRow : BitVec 3 := 7

/-! ## Levels and characters -/

/-- `min(level, 15)`. 41_device_state.md R105. -/
def clampLevel (level : Byte) : BitVec 4 := if level ≤ 15 then level.setWidth 4 else 15

/-- `encodeBrightness(level) = BRIGHT_BASE | zext_8(level)`. 30_encoding.md R72. -/
def encodeBrightness (c : Config) (level : BitVec 4) : Byte := c.brightBase ||| level.setWidth 8

/-- The character `'.'`. 30_encoding.md R65. -/
def dotChar : Byte := 0x2E

/-- `GLYPH`: '1' and '2' as R10 fixes them, every other character by the instance's table. 00_scope.md R10. -/
def glyph (c : Config) (ch : Byte) : Option (BitVec 7) :=
  if ch = 0x31 then some 0x06
  else if ch = 0x32 then some 0x5B
  else (c.glyphs.find? fun e => e.1 == ch).map fun e => e.2

/-- The pattern of a recognized character: "`c ≠ '.'` and `GLYPH` is defined at `c`". 41_device_state.md R101. -/
def recognized (c : Config) (ch : Byte) : Option (BitVec 7) :=
  if ch = dotChar then none else glyph c ch

/-! ## Bus payloads -/

/-- `RAM_BASE`. 00_scope.md R7. -/
def ramBase : Byte := 0x00

/-- The four payloads the block emits, and no other. 30_encoding.md R71, R75. -/
inductive Payload where
  | oscillatorEnable
  | displayEnable
  | brightness (level : BitVec 4)
  | ramWrite (rows : List Byte)
  deriving DecidableEq, Repr

/-- The bytes of a payload. 30_encoding.md R71 to R74. -/
def Payload.bytes (c : Config) : Payload → List Byte
  | .oscillatorEnable => [c.oscOnCmd]
  | .displayEnable => [c.dispOnCmd]
  | .brightness level => [encodeBrightness c level]
  | .ramWrite rows => ramBase :: rows

end Sys2Proof.Machine
end

