-- ==== Sys2Proof/Machine/Ops.lean ====
section
/-! DEFINITION. The operations the commands share: buffer access (20_memory.md R42), the bus port
(60_exceptions.md R147), the result port (10_state.md R31), the discarding of an illegal command
(60_exceptions.md R142), the command port (30_encoding.md R64) and the reset event (70_reset_and_hazards.md R160). -/

namespace Sys2Proof.Machine

/-! ## The buffer -/

/-- What a row that the list does not hold reads as: its reset contents. 10_state.md R34. -/
def unlistedRow : Byte := 0x00

/-- The byte at key `a`. -/
def Memory.byteAt : Memory → Nat → Byte
  | [], _ => unlistedRow
  | (b, v) :: m, a => if b = a then v else Memory.byteAt m a

/-- Set the byte at key `a`, keeping the canonical form: rows rising, a byte equal to `unlistedRow` not listed. -/
def Memory.setByte (a : Nat) (v : Byte) : Memory → Memory
  | [] => if v = unlistedRow then [] else [(a, v)]
  | (b, w) :: m =>
    if a < b then (if v = unlistedRow then (b, w) :: m else (a, v) :: (b, w) :: m)
    else if a = b then (if v = unlistedRow then m else (a, v) :: m)
    else (b, w) :: Memory.setByte a v m

/-- The canonical form: rows strictly rising, each a row number 0 to 15 (20_memory.md R41), no byte equal to what an
unlisted row reads as. -/
abbrev Memory.wf (m : Memory) : Prop :=
  m.Pairwise (fun c d => c.1 < d.1) ∧ ∀ c ∈ m, c.1 < 16 ∧ c.2 ≠ unlistedRow

/-- `buf[r]`. A row address is 4 bits, so no other row can be named. 20_memory.md R40, R41. -/
def Memory.read (m : Memory) (r : BitVec 4) : Byte := m.byteAt r.toNat

/-- `MemWrite(r, 1, v)`. 20_memory.md R42. -/
def Memory.write (m : Memory) (r : BitVec 4) (v : Byte) : Memory := m.setByte r.toNat v

/-- `MemRead(r, n)`, row r first; the rules use `MemRead(0, 16)` only. 20_memory.md R42. -/
def memRead (m : Memory) (r : BitVec 4) (n : Nat) : List Byte :=
  (List.range n).map fun k => m.read (r + BitVec.ofNat 4 k)

/-- The sixteen row addresses, rising. 20_memory.md R50. -/
def allRows : List (BitVec 4) := (List.range 16).map (BitVec.ofNat 4)

/-- Put a new buffer in place. -/
def State.setBuf (s : State) (m : Memory) : State := { s with buf := m }

/-! ## The output ports -/

/-- A blocking fade is armed and has made no internal step: its first one takes `step` from 15 to 14, and FadingOut
never comes back to 15. 42_fade_controller.md R123, R126. -/
def State.justArmed (s : State) : Bool := s.blocking && s.fadeState == .fadingOut && s.step == 15

/-- The observation port: the buffer, the brightness and the fade state "as they stand after the last completed
command", during a blocking fade after its last internal step, latched while the block hangs. Between the arming of a
blocking fade and its first internal step the port still shows Idle, the state of the last completed command (the buffer
and the brightness are the same): DEDUCED, assumption log 24. 10_state.md R33. -/
def State.observe (s : State) : Observation :=
  match s.hung with
  | none =>
    { buf := s.buf, brightness := s.brightness, fadeState := if s.justArmed then .idle else s.fadeState }
  | some o => o

/-- The command port is ready. 10_state.md R29, 42_fade_controller.md R127; a block waiting for a bus answer is not
ready either, 60_exceptions.md R147. -/
def State.ready (s : State) : Bool := !s.blocking && s.hung.isNone

/-- Drive the result port once, with the `fading` bit as it stands. 10_state.md R31, R32. -/
def driveResult (st : Status) (s : State) : State :=
  { s with outputs := s.outputs ++ [.result st (fading s)] }

/-- What the environment will do with the next transaction: the next listed reply, else a free draw of `ok` or `err`.
60_exceptions.md R147; assumption logs 2 and 3. -/
def State.nextReply (s : State) : BusReply :=
  match s.busReplies with
  | [] =>
    match Config.freeAnswer s.busDraws with
    | .ok => .ok
    | .err => .err
  | r :: _ => r

/-- `BusWrite(I2C_ADDR, payload)`: one transaction on the bus port, with the environment's reply to it.
60_exceptions.md R147, 30_encoding.md R71, R75. -/
def busWrite (p : Payload) (s : State) : BusReply × State :=
  (s.nextReply,
    { s with
      outputs := s.outputs ++ [.bus s.cfg.i2cAddr (p.bytes s.cfg) s.nextReply]
      busReplies := s.busReplies.tail
      busDraws := if s.busReplies.isEmpty then s.busDraws + 1 else s.busDraws })

/-- `brightness <- lv`. 10_state.md R24. -/
def storeBrightness (lv : BitVec 4) (s : State) : State := { s with brightness := lv }

/-- `applyBrightness(lv)`: "stored first, whatever the bus answers". 41_device_state.md R104. -/
def applyBrightness (lv : BitVec 4) (s : State) : BusReply × State :=
  busWrite (.brightness lv) (storeBrightness lv s)

/-- `BusWrite(I2C_ADDR, [RAM_BASE] ++ MemRead(0, 16))`: the flush without its result-port write.
41_device_state.md R103, 42_fade_controller.md R124. -/
def flushBuffer (s : State) : BusReply × State :=
  busWrite (.ramWrite (memRead s.buf 0 16)) s

/-- The block waits for ever for an answer: nothing more happens, and the observation port keeps showing what it
showed before the command (`before`). 60_exceptions.md R147, 10_state.md R33. -/
def hang (before s : State) : State := { s with hung := some before.observe }

/-- End a command whose transactions came to a reply: drive the result port, or hang. 60_exceptions.md R143, R147. -/
def finish (before : State) (o : BusReply × State) : State :=
  match o.1 with
  | .never => hang before o.2
  | .ok => driveResult .ok o.2
  | .err => driveResult .transportError o.2

/-! ## The command port, errors and reset -/

/-- The words of the command stream before the block: received first, then offered. 30_encoding.md R60. -/
def State.stream (s : State) : List Word := s.received ++ s.offered

/-- Take a whole command of `n` words from the stream. 30_encoding.md R64. -/
def takeWords (n : Nat) (s : State) : State :=
  { s with received := [], offered := s.stream.drop n }

/-- Receive the words of a command not yet whole, and wait for the rest. 30_encoding.md R64. -/
def receiveWords (s : State) : State :=
  { s with received := s.stream, offered := [] }

/-- The environment's part of a step: the value of the time input and the words newly offered. 10_state.md R30. -/
def deliver (t : Word) (ws : List Word) (s : State) : State :=
  { s with now := t, offered := s.offered ++ ws }

/-- IllegalCommand, the one exception a command word raises: "the command's words are consumed, no state element
changes, no bus transaction is emitted, and the result port shows (ILLEGAL_COMMAND, fadeState ≠ Idle)"
(60_exceptions.md R142). The words are taken by `takeWords`; there is no trap entry and no return (R146). -/
def illegalCommand (s : State) : State := driveResult .illegalCommand s

/-- The reset event: every state element at the value of 10_state.md R34, the command port ready, a partly received
command discarded, nothing emitted. 70_reset_and_hazards.md R160. What belongs to the environment (words offered but
not taken, the time input, its replies and turns) and the record of what was driven before stay; assumption log 13. -/
def resetBlock (s : State) : State :=
  { s with
    buf := []
    brightness := 0
    fadeState := .idle
    step := 0
    last := 0
    delay := 0
    blocking := false
    blockErr := false
    hung := none
    received := [] }

end Sys2Proof.Machine
end

