-- ==== Sys2Proof/Machine/Codec.lean ====
section
/-! DEFINITION. The buffer codec: the decoder write function and its five commands, 40_buffer_codec.md R80 to R87. -/

namespace Sys2Proof.Machine

/-- Clear column `p` in all 8 rows of display `d`: the first loop of `setDigitF`. 40_buffer_codec.md R80. -/
def clearColumn (m : Memory) (d : BitVec 1) (p : BitVec 3) : Memory :=
  eight.foldl (fun out s => out.write (row d s) (out.read (row d s) &&& ~~~(mask p))) m

/-- Set column `p` in the rows of the segments of `pat`: the second loop. 40_buffer_codec.md R80. -/
def setSegments (m : Memory) (d : BitVec 1) (p : BitVec 3) (pat : Byte) : Memory :=
  segments.foldl
    (fun out s =>
      if pat.getLsbD s.toNat then out.write (row d s) (out.read (row d s) ||| mask p) else out) m

/-- Set column `p` in the decimal-point row if `dot`: the last line. 40_buffer_codec.md R80. -/
def setDot (m : Memory) (d : BitVec 1) (p : BitVec 3) (dot : Bool) : Memory :=
  if dot then m.write (row d dotRow) (m.read (row d dotRow) ||| mask p) else m

/-- `setDigitF(buf, d, p, pat, dot)`: clear the column, then set it; an invalid coordinate changes nothing.
40_buffer_codec.md R80. -/
def setDigitF (m : Memory) (d p pat : Byte) (dot : Bool) : Memory :=
  match coord d p with
  | none => m
  | some (d', p') => setDot (setSegments (clearColumn m d' p') d' p' pat) d' p' dot

/-- `clearDisplayF(buf, display)`: blank the positions 0 to 7. 40_buffer_codec.md R84. -/
def clearDisplayF (m : Memory) (display : Byte) : Memory :=
  eight.foldl (fun out p => setDigitF out display (p.setWidth 8) 0x00 false) m

/-- The setDigit16 write: nothing where `position16 ≥ 16`. 40_buffer_codec.md R83. -/
def setDigit16F (m : Memory) (position16 pat : Byte) (dot : Bool) : Memory :=
  if position16 < 16 then setDigitF m (position16 / 8) (position16 % 8) pat dot else m

/-- Write one value to every row. 40_buffer_codec.md R85, R86. -/
def fillRows (m : Memory) (v : Byte) : Memory := allRows.foldl (fun out r => out.write r v) m

/-- setDigit. 40_buffer_codec.md R81. -/
def execSetDigit (display position pattern : Byte) (dot : Bool) (s : State) : Host.Outcome State Fault Refusal :=
  .next (driveResult .ok (s.setBuf (setDigitF s.buf display position pattern dot)))

/-- setDigit16. 40_buffer_codec.md R83. -/
def execSetDigit16 (position16 pattern : Byte) (dot : Bool) (s : State) : Host.Outcome State Fault Refusal :=
  .next (driveResult .ok (s.setBuf (setDigit16F s.buf position16 pattern dot)))

/-- clearDisplay. 40_buffer_codec.md R84. -/
def execClearDisplay (display : Byte) (s : State) : Host.Outcome State Fault Refusal :=
  .next (driveResult .ok (s.setBuf (clearDisplayF s.buf display)))

/-- clearAll. 40_buffer_codec.md R85. -/
def execClearAll (s : State) : Host.Outcome State Fault Refusal :=
  .next (driveResult .ok (s.setBuf (fillRows s.buf 0x00)))

/-- fillAll. 40_buffer_codec.md R86. -/
def execFillAll (s : State) : Host.Outcome State Fault Refusal :=
  .next (driveResult .ok (s.setBuf (fillRows s.buf 0xFF)))

end Sys2Proof.Machine
end

