-- ==== Sys2Proof/Machine/Device.lean ====
section
/-! DEFINITION. The device-state commands writeString, flush, setBrightness and configure, 41_device_state.md R100 to
R107. -/

namespace Sys2Proof.Machine

/-- The scanning loop of `writeStringF` from the text still to be read and the next slot on: a recognized character
takes the slot, with the dot that immediately follows it; any other character is skipped; the scan ends with the text
or with 8 slots filled. 41_device_state.md R101. -/
def writeChars (c : Config) (display : Byte) : List Byte → Nat → Memory → Memory
  | [], _, out => out
  | ch :: text, slot, out =>
    if 8 ≤ slot then out
    else
      match recognized c ch with
      | none => writeChars c display text slot out
      | some g =>
        match text with
        | [] => setDigitF out display (BitVec.ofNat 8 slot) (g.setWidth 8) false
        | x :: text' =>
          if x = dotChar then
            writeChars c display text' (slot + 1)
              (setDigitF out display (BitVec.ofNat 8 slot) (g.setWidth 8) true)
          else
            writeChars c display (x :: text') (slot + 1)
              (setDigitF out display (BitVec.ofNat 8 slot) (g.setWidth 8) false)

/-- `writeStringF(buf, display, text)`. 41_device_state.md R101. -/
def writeStringF (c : Config) (m : Memory) (display : Byte) (text : List Byte) : Memory :=
  writeChars c display text 0 (clearDisplayF m display)

/-- writeString. 41_device_state.md R100. -/
def execWriteString (display : Byte) (text : List Byte) (s : State) : Host.Outcome State Fault Refusal :=
  .next (driveResult .ok (s.setBuf (writeStringF s.cfg s.buf display text)))

/-- flush. 41_device_state.md R103. -/
def execFlush (s : State) : Host.Outcome State Fault Refusal :=
  .next (finish s (flushBuffer s))

/-- setBrightness. 41_device_state.md R104, R105. -/
def execSetBrightness (level : Byte) (s : State) : Host.Outcome State Fault Refusal :=
  .next (finish s (applyBrightness (clampLevel level) s))

/-- The transactions of configure, up to the first that is not answered `ok`. 41_device_state.md R106. -/
def configureChip (s : State) : BusReply × State :=
  let a := busWrite .oscillatorEnable s
  match a.1 with
  | .ok =>
    let b := busWrite .displayEnable a.2
    match b.1 with
    | .ok => applyBrightness 15 b.2
    | .err => b
    | .never => b
  | .err => a
  | .never => a

/-- configure. 41_device_state.md R106. -/
def execConfigure (s : State) : Host.Outcome State Fault Refusal :=
  .next (finish s (configureChip s))

end Sys2Proof.Machine
end

