-- ==== Sys2Proof/Machine/Fade.lean ====
section
/-! DEFINITION. The fade controller: the step, its commands fadeStart, fadeTick and fadeBlocking, and the internal
step of a blocking fade, 42_fade_controller.md R120 to R131. -/

namespace Sys2Proof.Machine

/-- Arm the state machine. 42_fade_controller.md R120 (first row), R121, R126. -/
def armFade (d : Word) (s : State) : State :=
  { s with fadeState := .fadingOut, step := 15, delay := d, last := s.now }

/-- The end of the FadingOut step that applies brightness 0: the handoff flush, "emitted even if that brightness
transaction was answered `err`", then FadingIn. `r` is the reply to that brightness transaction.
42_fade_controller.md R123, R124. -/
def handoff (r : BusReply) (s : State) : BusReply × State :=
  let b := flushBuffer s
  match b.1 with
  | .never => b
  | .ok => (r.both .ok, { b.2 with fadeState := .fadingIn, step := 0 })
  | .err => (r.both .err, { b.2 with fadeState := .fadingIn, step := 0 })

/-- The step counter's move after its brightness transaction was answered with `r`. 42_fade_controller.md R123. -/
def advance (r : BusReply) (s : State) : BusReply × State :=
  if s.fadeState = .fadingOut then
    if s.step = 0 then handoff r s else (r, { s with step := s.step - 1 })
  else
    if s.step = 15 then (r, { s with fadeState := .idle }) else (r, { s with step := s.step + 1 })

/-- `last <- now`. 42_fade_controller.md R123, R125. -/
def markTransition (s : State) : State := { s with last := s.now }

/-- `fadeStepF(now)`: apply the brightness held in `step`, then advance the counter; a transaction never answered
leaves the step where it waits. 42_fade_controller.md R123. -/
def fadeStepF (s : State) : BusReply × State :=
  let a := applyBrightness s.step (markTransition s)
  match a.1 with
  | .never => a
  | .ok => advance .ok a.2
  | .err => advance .err a.2

/-- fadeStart: "when not Idle the command is ignored entirely, including its delay". 42_fade_controller.md R121. -/
def execFadeStart (d : Word) (s : State) : Host.Outcome State Fault Refusal :=
  .next (driveResult .ok (if s.fadeState = .idle then armFade d s else s))

/-- fadeTick. 42_fade_controller.md R122. -/
def execFadeTick (s : State) : Host.Outcome State Fault Refusal :=
  .next
    (if s.fadeState = .idle then driveResult .ok s
     else if elapsed s then finish s (fadeStepF s)
     else driveResult .ok s)

/-- fadeBlocking: ignored when not Idle; otherwise armed, and the loop of the command runs as internal steps
(`internalStep`) while `blocking` = 1, the result port being driven at its end. 42_fade_controller.md R126, R127. -/
def execFadeBlocking (d : Word) (s : State) : Host.Outcome State Fault Refusal :=
  .next
    (if s.fadeState = .idle then { armFade d s with blocking := true, blockErr := false }
     else driveResult .ok s)

/-- After a fade step of a blocking fade whose transactions came to an answer, `err` if `e`: when the state machine
is Idle, clear `blocking` and drive the result port once. 42_fade_controller.md R126, R127. -/
def endInternalStep (e : Bool) (s : State) : State :=
  if s.fadeState = .idle then
    driveResult (if e then .transportError else .ok) { s with blocking := false, blockErr := false }
  else { s with blockErr := e }

/-- One internal step of a blocking fade, "enabled exactly when `E(now)` holds for the current time input"; while it
does not hold, nothing changes. 42_fade_controller.md R127. -/
def internalStep (s : State) : State :=
  if elapsed s then
    let a := fadeStepF s
    match a.1 with
    | .never => hang s a.2
    | .ok => endInternalStep s.blockErr a.2
    | .err => endInternalStep true a.2
  else s

end Sys2Proof.Machine
end

