-- ==== Sys2Proof/Machine/Dispatch.lean ====
section
/-! DEFINITION. The meaning of every command, one arm each. -/

namespace Sys2Proof.Machine

def exec (i : Instr) (s : State) : Host.Outcome State Fault Refusal :=
  match i with
  | .setDigit display position pattern dot => Sys2Proof.Machine.execSetDigit display position pattern dot s
  | .setDigit16 position16 pattern dot => Sys2Proof.Machine.execSetDigit16 position16 pattern dot s
  | .clearDisplay display => Sys2Proof.Machine.execClearDisplay display s
  | .clearAll => Sys2Proof.Machine.execClearAll s
  | .fillAll => Sys2Proof.Machine.execFillAll s
  | .writeString display text => Sys2Proof.Machine.execWriteString display text s
  | .flush => Sys2Proof.Machine.execFlush s
  | .setBrightness level => Sys2Proof.Machine.execSetBrightness level s
  | .configure => Sys2Proof.Machine.execConfigure s
  | .fadeStart delay => Sys2Proof.Machine.execFadeStart delay s
  | .fadeTick => Sys2Proof.Machine.execFadeTick s
  | .fadeBlocking delay => Sys2Proof.Machine.execFadeBlocking delay s

end Sys2Proof.Machine
end

