-- ==== Sys2Proof/Machine/Turn.lean ====
section
/-! DEFINITION. What one step does: take the environment's turn, then either nothing (the block waits), an internal
step of a blocking fade, or the next command of the stream (10_state.md R22, R30; 30_encoding.md R64;
42_fade_controller.md R127; 70_reset_and_hazards.md R160). -/

namespace Sys2Proof.Machine

/-- Take the next command of the stream, if it is whole: run it, or discard it if it is illegal.
30_encoding.md R64, R70; 60_exceptions.md R142. -/
def takeCommand (s : State) : Host.Outcome State Fault Refusal :=
  match decode s.stream with
  | .incomplete => .next (receiveWords s)
  | .illegal _ n => .next (illegalCommand (takeWords n s))
  | .command i n => exec i (takeWords n s)

/-- The block's part of a step: nothing while it waits for ever for a bus answer, an internal step while a blocking
fade runs, else the next command. 60_exceptions.md R147, 42_fade_controller.md R127, 20_memory.md R54. -/
def runBlock (s : State) : Host.Outcome State Fault Refusal :=
  if s.hung.isSome then .next s
  else if s.blocking then .next (internalStep s)
  else takeCommand s

/-- The environment's turn: a reset event, or the value of the time input and the words newly offered. Where no turn is
listed, no word is offered and the time input has a free value. 10_state.md R30; assumption logs 1, 14. -/
def takeTurn (s : State) : State :=
  match s.turns with
  | [] => deliver (Config.freeTime s.timeDraws) [] { s with timeDraws := s.timeDraws + 1 }
  | .reset :: ts => { s with turns := ts }
  | .run t ws :: ts => deliver t ws { s with turns := ts }

/-- One step: the environment's turn, then the block's part. A reset event is a step of its own.
70_reset_and_hazards.md R160; assumption log 13. -/
def runTurn (s : State) : Host.Outcome State Fault Refusal :=
  match s.turns with
  | [] => runBlock (takeTurn s)
  | .reset :: _ => .next (resetBlock (takeTurn s))
  | .run _ _ :: _ => runBlock (takeTurn s)

/-- The next turn of the environment is a reset event. -/
def Turn.isReset : Turn → Bool
  | .reset => true
  | .run _ _ => false

/-- Place a command at the head of the stream of a block that takes it at its next step: the block is ready and no
reset comes first. Assumption log 12. -/
def placeCommand (ws : List Word) (s : State) : State :=
  { s with
    received := []
    offered := ws ++ s.offered
    blocking := false
    hung := none
    turns := s.turns.dropWhile Turn.isReset }

end Sys2Proof.Machine
end

