-- ==== Sys2Proof/Machine/Step.lean ====
section
/-! DEFINITION. The step of the machine, and the state in which the next step runs a given instruction. -/

namespace Sys2Proof.Machine

/-- One step of the block and its environment. 20_memory.md R54; 10_state.md R30. -/
def step (s : State) : Host.Outcome State Fault Refusal := runTurn s

/-- `s` with an instruction of the opcode table offered as the next command. Assumption log 12. -/
def State.withFetchWord (s : State) (nbits w : Nat) : State := placeCommand (tableCommand nbits w) s

end Sys2Proof.Machine
end

