-- ==== Sys2Proof/Machine/Assembler.lean ====
section
/-! DEFINITION. The spec's assembly syntax, one command a line, and its pseudo-instructions, as a function from the
bytes of a line to the command (30_encoding.md R76, R77). It is no part of the block; assumption log 17. -/

namespace Sys2Proof.Machine

/-- The bytes of an ASCII text. -/
def asciiBytes (text : String) : List Byte := text.toList.map fun ch => BitVec.ofNat 8 ch.toNat

/-! ## Tokens -/

/-- A token of a line: a bare word (mnemonic or number), a text literal, a comma. 30_encoding.md R76. -/
inductive Token where
  | word (w : List Byte)
  | text (t : List Byte)
  | comma
  deriving DecidableEq, Repr

/-- Where the scanner is: between tokens, in a word, in a text literal, after its backslash, in a comment, or at a
byte it refuses. What a word or a literal has so far is held in reverse. -/
inductive Scan where
  | between
  | inWord (w : List Byte)
  | inText (t : List Byte)
  | afterBackslash (t : List Byte)
  | comment
  | bad
  deriving DecidableEq, Repr

/-- The scanner outside a literal meets a byte: blank, comma, semicolon, quote, or a byte of a word `w`. -/
def scanPlain (toks : List Token) (w : List Byte) (b : Byte) : Scan × List Token :=
  let done := if w.isEmpty then toks else .word w.reverse :: toks
  if b = 0x20 ∨ b = 0x09 then (.between, done)
  else if b = 0x2C then (.between, .comma :: done)
  else if b = 0x3B then (.comment, done)
  else if b = 0x22 then (if w.isEmpty then (.inText [], done) else (.bad, done))
  else (.inWord (b :: w), toks)

/-- One byte of a line; in a literal, backslash-quote is a quote, backslash-backslash a backslash, "every other byte
stands for itself". The tokens are held in reverse. 30_encoding.md R76. -/
def scanByte (st : Scan × List Token) (b : Byte) : Scan × List Token :=
  match st.1 with
  | .between => scanPlain st.2 [] b
  | .inWord w => scanPlain st.2 w b
  | .inText t =>
    if b = 0x22 then (.between, .text t.reverse :: st.2)
    else if b = 0x5C then (.afterBackslash t, st.2)
    else (.inText (b :: t), st.2)
  | .afterBackslash t =>
    if b = 0x22 ∨ b = 0x5C then (.inText (b :: t), st.2) else (.inText (b :: 0x5C :: t), st.2)
  | .comment => (.comment, st.2)
  | .bad => (.bad, st.2)

/-- The tokens of a line, none where a literal is left open or touches a word. -/
def scanLine (line : List Byte) : Option (List Token) :=
  match line.foldl scanByte (.between, []) with
  | (.between, toks) => some toks.reverse
  | (.comment, toks) => some toks.reverse
  | (.inWord w, toks) => some (Token.word w.reverse :: toks).reverse
  | (.inText _, _) => none
  | (.afterBackslash _, _) => none
  | (.bad, _) => none

/-! ## Operands -/

/-- The value of a digit in a base up to 16. -/
def digitValue (base : Nat) (b : Byte) : Option Nat :=
  let n := b.toNat
  let v :=
    if 0x30 ≤ n ∧ n ≤ 0x39 then some (n - 0x30)
    else if 0x41 ≤ n ∧ n ≤ 0x46 then some (n - 0x41 + 10)
    else if 0x61 ≤ n ∧ n ≤ 0x66 then some (n - 0x61 + 10)
    else none
  v.bind fun k => if k < base then some k else none

/-- The value of a run of digits. -/
def digitsValue (base : Nat) (ds : List Byte) : Option Nat :=
  if ds.isEmpty then none
  else ds.foldl (fun acc b => acc.bind fun a => (digitValue base b).map fun k => a * base + k) (some 0)

/-- "numbers are decimal or `0x` hexadecimal". 30_encoding.md R76. -/
def numberValue (w : List Byte) : Option Nat :=
  match w with
  | 0x30 :: 0x78 :: ds => digitsValue 16 ds
  | _ => digitsValue 10 w

/-- An operand of a line. -/
inductive Operand where
  | number (n : Nat)
  | text (t : List Byte)
  deriving DecidableEq, Repr

/-- One operand from its token. -/
def operandOf : Token → Option Operand
  | .word w => (numberValue w).map .number
  | .text t => some (.text t)
  | .comma => none

/-- The operands after the first: each a comma and an operand. -/
def moreOperands : List Token → Option (List Operand)
  | [] => some []
  | .comma :: t :: ts =>
    match operandOf t, moreOperands ts with
    | some o, some os => some (o :: os)
    | _, _ => none
  | _ => none

/-- "comma-separated operands". 30_encoding.md R76. -/
def operandsOf : List Token → Option (List Operand)
  | [] => some []
  | t :: ts =>
    match operandOf t, moreOperands ts with
    | some o, some os => some (o :: os)
    | _, _ => none

/-- An operand of an 8-bit field, refused above 255. 30_encoding.md R76. -/
def byteOperand (n : Nat) : Option Byte := if n ≤ 255 then some (BitVec.ofNat 8 n) else none

/-- The dot operand, refused unless 0 or 1. 30_encoding.md R76. -/
def dotOperand (n : Nat) : Option Bool :=
  if n = 0 then some false else if n = 1 then some true else none

/-- The delay operand, refused above 2^32 - 1. 30_encoding.md R76. -/
def delayOperand (n : Nat) : Option Word := if n < 2 ^ 32 then some (BitVec.ofNat 32 n) else none

/-! ## Lines -/

/-- The mnemonics of R76 and R77. -/
inductive Mnemonic where
  | command (x : Op)
  | blankDigit
  | blankDigit16
  | brightMax
  deriving DecidableEq, Repr

/-- The spelling of each mnemonic. 30_encoding.md R62, R77. -/
def mnemonics : List (List Byte × Mnemonic) :=
  [ (asciiBytes "setDigit", .command .setDigit), (asciiBytes "setDigit16", .command .setDigit16),
    (asciiBytes "clearDisplay", .command .clearDisplay), (asciiBytes "clearAll", .command .clearAll),
    (asciiBytes "fillAll", .command .fillAll), (asciiBytes "writeString", .command .writeString),
    (asciiBytes "flush", .command .flush), (asciiBytes "setBrightness", .command .setBrightness),
    (asciiBytes "configure", .command .configure), (asciiBytes "fadeStart", .command .fadeStart),
    (asciiBytes "fadeTick", .command .fadeTick), (asciiBytes "fadeBlocking", .command .fadeBlocking),
    (asciiBytes "blankDigit", .blankDigit), (asciiBytes "blankDigit16", .blankDigit16),
    (asciiBytes "brightMax", .brightMax) ]

/-- The command of a mnemonic and its operands; "An assembler refuses an operand that does not fit its field", and
keeps out-of-range coordinates that fit. 30_encoding.md R76, R77. -/
def commandOf : Mnemonic → List Operand → Option Instr
  | .command .setDigit, [.number d, .number p, .number pat, .number dot] =>
    match byteOperand d, byteOperand p, byteOperand pat, dotOperand dot with
    | some d, some p, some pat, some dot => some (.setDigit d p pat dot)
    | _, _, _, _ => none
  | .command .setDigit16, [.number p, .number pat, .number dot] =>
    match byteOperand p, byteOperand pat, dotOperand dot with
    | some p, some pat, some dot => some (.setDigit16 p pat dot)
    | _, _, _ => none
  | .command .clearDisplay, [.number d] => (byteOperand d).map .clearDisplay
  | .command .clearAll, [] => some .clearAll
  | .command .fillAll, [] => some .fillAll
  | .command .writeString, [.number d, .text t] =>
    if t.length ≤ 255 then (byteOperand d).map fun d => .writeString d t else none
  | .command .flush, [] => some .flush
  | .command .setBrightness, [.number level] => (byteOperand level).map .setBrightness
  | .command .configure, [] => some .configure
  | .command .fadeStart, [.number d] => (delayOperand d).map .fadeStart
  | .command .fadeTick, [] => some .fadeTick
  | .command .fadeBlocking, [.number d] => (delayOperand d).map .fadeBlocking
  | .blankDigit, [.number d, .number p] =>
    match byteOperand d, byteOperand p with
    | some d, some p => some (Pseudo.blankDigit d p).expand
    | _, _ => none
  | .blankDigit16, [.number p] => (byteOperand p).map fun p => (Pseudo.blankDigit16 p).expand
  | .brightMax, [] => some Pseudo.brightMax.expand
  | _, _ => none

/-- What a line assembles to. -/
inductive Assembled where
  /-- A blank line or a comment. -/
  | nothing
  | command (i : Instr)
  /-- The assembler refuses the line. -/
  | refusedLine
  deriving DecidableEq, Repr

/-- Assemble one line: "the mnemonic of rule R62 followed by comma-separated operands". 30_encoding.md R76, R77. -/
def assembleLine (line : List Byte) : Assembled :=
  match scanLine line with
  | none => .refusedLine
  | some [] => .nothing
  | some (.word m :: ts) =>
    match mnemonics.find? (fun e => e.1 == m), operandsOf ts with
    | some e, some os =>
      match commandOf e.2 os with
      | some i => .command i
      | none => .refusedLine
    | _, _ => .refusedLine
  | some (.text _ :: _) => .refusedLine
  | some (.comma :: _) => .refusedLine

end Sys2Proof.Machine
end

