-- ==== Sys2Proof/Machine/Chip.lean ====
section
/-! DEFINITION. What the block's traffic says of the display chip's RAM: a view of the record of the bus port, no state
(20_memory.md R57, 70_reset_and_hazards.md R170). -/

namespace Sys2Proof.Machine

/-- What one event makes of the known RAM content. After a transaction answered `err`, whichever its payload,
the chip's state is unknown (93_implementation_defined.md I7, 70_reset_and_hazards.md R170), and after one never answered
too (DESIGN CHOICE, assumption log 16). Of those answered `ok` only the
17-byte payload writes RAM (30_encoding.md R71): the 16 bytes from `RAM_BASE` are then the rows sent, as the chip stores
what an acknowledged write sends (PRESUMED, G4; assumption log 16). 20_memory.md R57. -/
def chipRamAfter (known : Option (List Byte)) : Output → Option (List Byte)
  | .result _ _ => known
  | .bus _ bytes reply =>
    if reply = .ok then (if bytes.length = 17 then some bytes.tail else known) else none

/-- The chip's 16 RAM bytes as far as they are known; before the first flush answered `ok`, and after a failed
transaction, they are not. 20_memory.md R57,
70_reset_and_hazards.md R162. -/
def chipRam (outputs : List Output) : Option (List Byte) := outputs.foldl chipRamAfter none

end Sys2Proof.Machine
end

