-- ==== Sys2Proof/Safety.lean ====
section
/-! DEFINITION. The terms claims are stated in: the invariant of the block's state (10_state.md R35), what a frame
keeps, what may stand on the output ports, and the runs of a fade (42_fade_controller.md R128). -/

namespace Sys2Proof.Machine

/-! ## The invariant -/

/-- 10_state.md R35, as far as the types do not already say it (`step` and `brightness` are 4 bits, `fadeState` has
three values): a running blocking fade is not Idle; with it the model's own clauses, which its representation needs: the
buffer in its canonical form (assumption log 11), the error of a blocking fade only while one runs (log 7), the words
received always a command not yet whole (logs 8 and 9). -/
structure State.Inv (s : State) : Prop where
  bufWf : s.buf.wf
  blockingFades : s.blocking = true → s.fadeState ≠ .idle
  errWhileBlocking : s.blocking = false → s.blockErr = false
  receivedPart : s.received ≠ [] → decode s.received = .incomplete

/-! ## Frames -/

/-- The fade controller's registers are the same. 42_fade_controller.md R120. -/
def SameFade (s t : State) : Prop :=
  t.fadeState = s.fadeState ∧ t.step = s.step ∧ t.last = s.last ∧ t.delay = s.delay ∧
    t.blocking = s.blocking ∧ t.blockErr = s.blockErr

/-- What no command changes: the buffer apart, everything a fade step leaves alone. 42_fade_controller.md R123. -/
def SamePorts (s t : State) : Prop :=
  t.received = s.received ∧ t.offered = s.offered ∧ t.now = s.now ∧ t.cfg = s.cfg ∧ t.turns = s.turns ∧
    t.timeDraws = s.timeDraws

/-- The events driven between two states: what stands in the record beyond what stood there. -/
def newOutputs (s t : State) : List Output := t.outputs.drop s.outputs.length

/-- Every row of the buffer, in order. -/
def rowsOf (m : Memory) : List Byte := (List.range 16).map fun k => m.read (BitVec.ofNat 4 k)

/-- `s` after one more transaction with these bytes: the transaction is driven, the reply used up.
60_exceptions.md R147. -/
def withBus (bytes : List Byte) (s : State) : State :=
  { s with
    outputs := s.outputs ++ [.bus s.cfg.i2cAddr bytes s.nextReply]
    busReplies := s.busReplies.tail
    busDraws := if s.busReplies = [] then s.busDraws + 1 else s.busDraws }

/-- `s` after one more write of the result port, with the `fading` bit as it stands. 10_state.md R31, R32. -/
def withResult (st : Status) (s : State) : State :=
  { s with outputs := s.outputs ++ [.result st (s.fadeState != .idle)] }

/-- The status after the answers of some transactions. 60_exceptions.md R144. -/
def statusOf (replies : List BusReply) : Status :=
  if BusReply.err ∈ replies then .transportError else .ok

/-! ## What may stand on the output ports -/

/-- The event is a write of the result port. -/
def Output.isResult : Output → Bool
  | .bus _ _ _ => false
  | .result _ _ => true

/-- The command is one of the buffer codec's five. 40_buffer_codec.md. -/
def isCodec : Instr → Bool
  | .setDigit _ _ _ _ => true
  | .setDigit16 _ _ _ => true
  | .clearDisplay _ => true
  | .clearAll => true
  | .fillAll => true
  | .writeString _ _ => false
  | .flush => false
  | .setBrightness _ => false
  | .configure => false
  | .fadeStart _ => false
  | .fadeTick => false
  | .fadeBlocking _ => false

/-- The command names a coordinate that does not exist. 60_exceptions.md R140. -/
def invalidCoordinate : Instr → Bool
  | .setDigit display position _ _ => decide (¬ (display < 2 ∧ position < 8))
  | .setDigit16 position16 _ _ => decide (¬ position16 < 16)
  | .clearDisplay display => decide (¬ display < 2)
  | .clearAll => false
  | .fillAll => false
  | .writeString display _ => decide (¬ display < 2)
  | .flush => false
  | .setBrightness _ => false
  | .configure => false
  | .fadeStart _ => false
  | .fadeTick => false
  | .fadeBlocking _ => false

/-- The replies of the transactions on the bus port, in order. -/
def busRepliesOf (os : List Output) : List BusReply :=
  os.filterMap fun o =>
    match o with
    | .bus _ _ reply => some reply
    | .result _ _ => none

/-- The payloads on the bus port, in order. -/
def busBytes (os : List Output) : List (List Byte) :=
  os.filterMap fun o =>
    match o with
    | .bus _ bytes _ => some bytes
    | .result _ _ => none

/-- A bus event is addressed to `I2C_ADDR` with one of the four payloads, a RAM write carrying the rows of the buffer `m`
in order. 30_encoding.md R71, R74, R75. -/
def Output.legal (c : Config) (m : Memory) : Output → Prop
  | .result _ _ => True
  | .bus addr bytes _ =>
    addr = c.i2cAddr ∧
      (bytes = Payload.bytes c .oscillatorEnable ∨ bytes = Payload.bytes c .displayEnable ∨
        (∃ level, bytes = Payload.bytes c (.brightness level)) ∨
        bytes = Payload.bytes c (.ramWrite (rowsOf m)))

/-! ## Fades -/

/-- Every transaction the block emits from `s` on is answered at once: no listed reply is `never`
(70_reset_and_hazards.md R163 asks the environment for this). -/
def AllAnswered (s : State) : Prop := BusReply.never ∉ s.busReplies

/-- The times of successive fade steps, each at least `delay` after the last transition, measured modulo 2^32.
42_fade_controller.md R125, R128. -/
def Spaced (delay : Word) : Word → List Word → Prop
  | _, [] => True
  | last, t :: ts => delay ≤ t - last ∧ Spaced delay t ts

/-- Repeated polling: one fadeTick at each time of the list. 42_fade_controller.md R122, R128. -/
def tickAt : List Word → State → State
  | [], s => s
  | t :: ts, s =>
    match exec .fadeTick { s with now := t } with
    | .next s' => tickAt ts s'
    | .fault _ => s
    | .refused _ => s

/-- Commands issued one after another, each at its value of the time input. 20_memory.md R54. -/
def issueAt : List (Word × Instr) → State → State
  | [], s => s
  | (t, i) :: js, s =>
    match exec i { s with now := t } with
    | .next s' => issueAt js s'
    | .fault _ => s
    | .refused _ => s

/-- The scanning loop of R101 as its pseudocode has it, over the index `i` into the text; `fuel` bounds the number of
rounds, each of which raises `i`. 41_device_state.md R101. -/
def textLoop (c : Config) (display : Byte) (text : List Byte) : Nat → Nat → Nat → Memory → Memory
  | 0, _, _, out => out
  | fuel + 1, i, slot, out =>
    if i < text.length ∧ slot < 8 then
      match recognized c (text.getD i 0) with
      | some g =>
        let dp := decide (i + 1 < text.length ∧ text.getD (i + 1) 0 = dotChar)
        textLoop c display text fuel (i + if dp then 2 else 1) (slot + 1)
          (setDigitF out display (BitVec.ofNat 8 slot) (g.setWidth 8) dp)
      | none => textLoop c display text fuel (i + 1) slot out
    else out

/-- The brightness levels of a direction of the fade, in the order FadingIn applies them: 0, 1, ..., 15. -/
def levels : List (BitVec 4) := (List.range 16).map (BitVec.ofNat 4)

/-- The 33 payloads of a complete fade over a buffer with these rows. 42_fade_controller.md R128. -/
def fadePayloads (c : Config) (rows : List Byte) : List (List Byte) :=
  levels.reverse.map (fun v => Payload.bytes c (.brightness v)) ++ [Payload.bytes c (.ramWrite rows)] ++
    levels.map (fun v => Payload.bytes c (.brightness v))

end Sys2Proof.Machine
end

