-- ==== Sys2Proof/Certificates/Slice0/Obligations.lean ====
section
/-! DEFINITION. The statements about the block, each a proposition for the provers. -/

open Sys2Proof Sys2Proof.Machine

/-! ## Encoding -/

/-- Decoding what the encoder writes gives the instruction back, whatever follows it in the stream: no bit of any
operand is dropped. 30_encoding.md R62 to R66. -/
def Obligations.DecodeOfEncodeIsTheCommand : Prop :=
  ∀ (i : Instr) (rest : List Word), i.wellFormed = true →
    decode (encode i ++ rest) = .command i (encode i).length

/-- Whatever decodes is a well-formed instruction whose encoding is the words taken, padding bytes of a text apart.
30_encoding.md R62 to R66. -/
def Obligations.EncodeOfDecodeIsTheWordsTaken : Prop :=
  ∀ (ws : List Word) (i : Instr) (n : Nat), decode ws = .command i n →
    i.wellFormed = true ∧ (encode i).length = n ∧ n ≤ ws.length ∧ (encode i).head? = ws.head? ∧
      ((∀ d text, i ≠ .writeString d text) → encode i = ws.take n) ∧
      ∀ d text, i = .writeString d text → text = textOf text.length (ws.tail)

/-- Decoding is total: once all its words are there, a command word matches exactly one row of the table and decodes to
that row's command, or it is illegal, for a reserved opcode or for a reserved bit. 30_encoding.md R70. -/
def Obligations.EveryCommandWordMatchesOneRowOrIsIllegal : Prop :=
  ∀ (w : Word) (ds : List Word), commandLength w ≤ ds.length + 1 →
    ((w.extractLsb' 28 4 = 0x0 ∨ w.extractLsb' 28 4 = 0xD ∨ w.extractLsb' 28 4 = 0xE ∨ w.extractLsb' 28 4 = 0xF) ∧
        decode (w :: ds) = .illegal .reservedOpcode (commandLength w) ∧
        ∀ x : Op, w &&& x.mask ≠ x.matchWord) ∨
      ∃ x : Op, w.extractLsb' 28 4 = x.code ∧ (∀ y : Op, w.extractLsb' 28 4 = y.code → y = x) ∧
        ((w &&& x.mask = x.matchWord ∧ (∀ y : Op, w &&& y.mask = y.matchWord → y = x) ∧
            decode (w :: ds) =
              .command (x.operands w (ds.take (commandLength w - 1))) (commandLength w)) ∨
          (w &&& x.mask ≠ x.matchWord ∧ decode (w :: ds) = .illegal .reservedBits (commandLength w)))

/-- The number of words is a function of the command word alone (30_encoding.md R64); a legal and an illegal command alike
consume exactly that many, so the next command begins after them. That a step receives the words of a command not yet
whole, an illegal one too, and holds them apart from the words offered, is the model's reading (assumption logs 8,
DESIGN CHOICE, and 9, DEDUCED). -/
def Obligations.CommandLengthComesFromTheCommandWordAlone : Prop :=
  ∀ (w : Word) (ds : List Word),
    (w.extractLsb' 28 4 = 0x6 → commandLength w = 1 + ((w.extractLsb' 0 8).toNat + 3) / 4) ∧
      (w.extractLsb' 28 4 = 0xA ∨ w.extractLsb' 28 4 = 0xC → commandLength w = 2) ∧
      (w.extractLsb' 28 4 ≠ 0x6 ∧ w.extractLsb' 28 4 ≠ 0xA ∧ w.extractLsb' 28 4 ≠ 0xC → commandLength w = 1) ∧
      (decode (w :: ds) = .incomplete ↔ (w :: ds).length < commandLength w) ∧
      (∀ i n, decode (w :: ds) = .command i n → n = commandLength w) ∧
      (∀ why n, decode (w :: ds) = .illegal why n → n = commandLength w) ∧
      ∀ s : State, s.hung = none → s.blocking = false → (∀ ts, s.turns ≠ .reset :: ts) →
        (takeTurn s).received ++ (takeTurn s).offered = w :: ds →
        ∃ t, step s = .next t ∧
          ((w :: ds).length < commandLength w → t.received = w :: ds ∧ t.offered = []) ∧
          (commandLength w ≤ (w :: ds).length → t.received = [] ∧ t.offered = (w :: ds).drop (commandLength w))

/-- Character `i` of a text is the byte `i % 4` of data word `i / 4` (counted from 0), the lowest byte first, and the
bytes of the last data word beyond the text do not matter. 30_encoding.md R65. -/
def Obligations.WriteStringTakesItsBytesLowestFirst : Prop :=
  ∀ (w : Word) (ds : List Word), w &&& 0xFF00FF00 = 0x60000000 →
    ((w.extractLsb' 0 8).toNat + 3) / 4 ≤ ds.length →
      ∃ text : List Byte, text.length = (w.extractLsb' 0 8).toNat ∧
        (∀ i, i < text.length →
          text.getD i 0 = ((ds.getD (i / 4) 0) >>> (8 * (i % 4))).setWidth 8) ∧
        decode (w :: ds) =
          .command (.writeString (w.extractLsb' 16 8) text) (1 + ((w.extractLsb' 0 8).toNat + 3) / 4)

/-- Sanity: words of the spec's examples decode to the instructions they stand for (40_buffer_codec.md R81, R83, R84;
41_device_state.md R100, R104; 42_fade_controller.md R121, R126; 95_test_vectors.md E1, E3, E9). -/
def Obligations.WordsOfTheSpecDecodeToTheirCommands : Prop :=
  decode [0x1101037F] = .command (.setDigit 1 3 0x7F true) 1 ∧
    decode [0x20000906] = .command (.setDigit16 9 0x06 false) 1 ∧
    decode [0x30010000] = .command (.clearDisplay 1) 1 ∧
    decode [0x60000002, 0x00002E31] = .command (.writeString 0 [0x31, 0x2E]) 2 ∧
    decode [0x80000014] = .command (.setBrightness 20) 1 ∧
    decode [0xA0000000, 0x0000000A] = .command (.fadeStart 10) 2 ∧
    decode [0xC0000000, 0x00000005, 0xB0000000] = .command (.fadeBlocking 5) 2 ∧
    decode [0x00000000] = .illegal .reservedOpcode 1 ∧
    decode [0x12000000] = .illegal .reservedBits 1 ∧
    decode [0x61000005, 0x31313131, 0x00000031] = .illegal .reservedBits 3

/-! ## The step -/

/-- When the block is ready and a whole command stands at the head of the stream, the step is that command's meaning
at the state after the environment's turn, with the command's words taken. 20_memory.md R54, 30_encoding.md R64. -/
def Obligations.StepRunsTheDecodedCommand : Prop :=
  ∀ (s : State) (i : Instr) (n : Nat), s.hung = none → s.blocking = false → (∀ ts, s.turns ≠ .reset :: ts) →
    decode ((takeTurn s).received ++ (takeTurn s).offered) = .command i n →
      step s = exec i { takeTurn s with
        received := [], offered := ((takeTurn s).received ++ (takeTurn s).offered).drop n }

/-- The environment's turn: the time input takes the turn's value and the turn's words are offered; with no turn listed
no word is offered and the time input has a free value. The model's choice, assumption logs 1 and 14; it rests on
10_state.md R30. -/
def Obligations.TurnSetsTheTimeAndOffersWords : Prop :=
  ∀ s : State,
    (∀ t ws ts, s.turns = .run t ws :: ts →
      takeTurn s = { s with now := t, offered := s.offered ++ ws, turns := ts }) ∧
    (s.turns = [] →
      takeTurn s = { s with now := Config.freeTime s.timeDraws, timeDraws := s.timeDraws + 1 })

/-- While words of a command are missing the block receives what is there and waits: nothing else changes. The model's
reading of 30_encoding.md R64 and 10_state.md R30: assumption logs 8 (DESIGN CHOICE, the port's two lists) and 9 (DEDUCED,
an illegal command waits for its missing words too). -/
def Obligations.PartOfACommandIsReceivedAndKept : Prop :=
  ∀ s : State, s.hung = none → s.blocking = false → (∀ ts, s.turns ≠ .reset :: ts) →
    decode ((takeTurn s).received ++ (takeTurn s).offered) = .incomplete →
      step s = .next { takeTurn s with
        received := (takeTurn s).received ++ (takeTurn s).offered, offered := [] }

/-- An illegal command is discarded: its words are consumed, nothing else of the block changes, no transaction is
emitted, the result port shows (ILLEGAL_COMMAND, fadeState ≠ Idle), and the next word is the next command word.
60_exceptions.md R142. -/
def Obligations.IllegalCommandIsDiscarded : Prop :=
  ∀ (s : State) (why : IllegalCause) (n : Nat), s.hung = none → s.blocking = false →
    (∀ ts, s.turns ≠ .reset :: ts) →
    decode ((takeTurn s).received ++ (takeTurn s).offered) = .illegal why n →
      step s = .next { takeTurn s with
        received := []
        offered := ((takeTurn s).received ++ (takeTurn s).offered).drop n
        outputs := s.outputs ++ [.result .illegalCommand (s.fadeState != .idle)] }

/-- No step stops the machine: errors are status codes, hangs are states. 60_exceptions.md R140, R146. -/
def Obligations.EveryStepAnswersANextState : Prop :=
  ∀ s : State, ∃ t, step s = .next t

/-! ## The buffer codec -/

/-- The address decoder and its inverse: bit `k` of row `r` is the lamp of display `r / 8`, position `k`, sub-row
`r % 8`, and every buffer bit is the image of exactly one coordinate. 20_memory.md R43, R46. -/
def Obligations.EveryBufferBitIsOneLamp : Prop :=
  ∀ (r : BitVec 4) (k : BitVec 3),
    (lampOf r k).1.toNat = r.toNat / 8 ∧ (lampOf r k).2.1 = k ∧ (lampOf r k).2.2.toNat = r.toNat % 8 ∧
      ∀ (d : BitVec 1) (p s : BitVec 3),
        (row d s).toNat = d.toNat * 8 + s.toNat ∧ (mask p).toNat = 2 ^ p.toNat ∧
          (row d s = r ∧ p = k ↔ (d, p, s) = lampOf r k)

/-- MemWrite writes its row and no other, and MemRead returns rows in order (20_memory.md R42). That a written buffer
keeps its canonical form is the model's own clause (assumption log 11). -/
def Obligations.RowWriteChangesThatRowOnly : Prop :=
  ∀ (m : Memory) (r : BitVec 4) (v : Byte), m.wf →
    (m.write r v).wf ∧ (m.write r v).read r = v ∧ (∀ q, q ≠ r → (m.write r v).read q = m.read q) ∧
      ∀ n k, k < n → r.toNat + k < 16 →
        (memRead m r n).length = n ∧ (memRead m r n).getD k 0 = m.read (BitVec.ofNat 4 (r.toNat + k))

/-- setDigit: the column of the position takes the pattern and the dot in the eight rows of the display, every other bit
keeps its value, an invalid coordinate changes nothing; the status is OK and nothing but `buf` changes.
40_buffer_codec.md R80, R81. A buffer is any list in the model's canonical form (assumption log
11). -/
def Obligations.SetDigitWritesOneColumn : Prop :=
  (∀ (w : Word) (ds : List Word), w &&& 0xFE000000 = 0x10000000 →
    decode (w :: ds) =
      .command (.setDigit (w.extractLsb' 16 8) (w.extractLsb' 8 8) (w.extractLsb' 0 8) (w.getLsbD 24)) 1) ∧
  ∀ (display position pattern : Byte) (dot : Bool) (s : State), s.buf.wf →
    ∃ m : Memory, exec (.setDigit display position pattern dot) s = .next (withResult .ok { s with buf := m }) ∧
      (display < 2 ∧ position < 8 → ∀ r : BitVec 4, m.read r =
        if r.toNat / 8 = display.toNat then
          (s.buf.read r &&& ~~~(1#8 <<< position.toNat)) |||
            (if (if r.toNat % 8 = 7 then dot else pattern.getLsbD (r.toNat % 8)) then 1#8 <<< position.toNat else 0)
        else s.buf.read r) ∧
      (¬ (display < 2 ∧ position < 8) → m = s.buf)

/-- setDigit is idempotent and last-writer-wins per digit, and writes at different coordinates commute.
40_buffer_codec.md R82. A buffer is any list in the model's canonical form (assumption log
11). -/
def Obligations.LastWriteOfADigitWins : Prop :=
  ∀ (b : Memory) (d p pat pat' : Byte) (dot dot' : Bool), b.wf →
    setDigitF (setDigitF b d p pat dot) d p pat dot = setDigitF b d p pat dot ∧
      setDigitF (setDigitF b d p pat' dot') d p pat dot = setDigitF b d p pat dot ∧
      ∀ d' p' : Byte, (d, p) ≠ (d', p') →
        setDigitF (setDigitF b d p pat dot) d' p' pat' dot' = setDigitF (setDigitF b d' p' pat' dot') d p pat dot

/-- setDigit16 is setDigit at display `position16 / 8`, position `position16 % 8`; at 16 and above nothing changes and
the status is OK. 40_buffer_codec.md R83, 20_memory.md R45. -/
def Obligations.SetDigit16IsSetDigitAtTheSplitPosition : Prop :=
  (∀ (w : Word) (ds : List Word), w &&& 0xFEFF0000 = 0x20000000 →
    decode (w :: ds) = .command (.setDigit16 (w.extractLsb' 8 8) (w.extractLsb' 0 8) (w.getLsbD 24)) 1) ∧
  ∀ (position16 pattern : Byte) (dot : Bool) (s : State),
    (position16.toNat < 16 → ∃ display position : Byte,
      display.toNat = position16.toNat / 8 ∧ position.toNat = position16.toNat % 8 ∧
        display < 2 ∧ position < 8 ∧
        exec (.setDigit16 position16 pattern dot) s = exec (.setDigit display position pattern dot) s ∧
        exec (.setDigit16 position16 pattern dot) s =
          .next (withResult .ok { s with buf := setDigitF s.buf display position pattern dot })) ∧
    (16 ≤ position16.toNat → exec (.setDigit16 position16 pattern dot) s = .next (withResult .ok s))

/-- clearDisplay sets the eight rows of its display to 0x00 and leaves every other row, and everything but `buf`; an
invalid display changes nothing. It is the eight blank digits of the display in sequence. 40_buffer_codec.md R84.
A buffer is any list in the model's canonical form (assumption log 11). -/
def Obligations.ClearDisplayBlanksOneDisplay : Prop :=
  (∀ (w : Word) (ds : List Word), w &&& 0xFF00FFFF = 0x30000000 →
    decode (w :: ds) = .command (.clearDisplay (w.extractLsb' 16 8)) 1) ∧
  ∀ (display : Byte) (s : State), s.buf.wf →
    ∃ m : Memory, exec (.clearDisplay display) s = .next (withResult .ok { s with buf := m }) ∧
      m = (List.range 8).foldl (fun b p => setDigitF b display (BitVec.ofNat 8 p) 0x00 false) s.buf ∧
      (display < 2 → ∀ r : BitVec 4, m.read r = if r.toNat / 8 = display.toNat then 0x00 else s.buf.read r) ∧
      (¬ display < 2 → m = s.buf)

/-- clearAll leaves every row 0x00, from any buffer, and changes nothing else. 40_buffer_codec.md R85. A buffer is
any list in the model's canonical form (assumption log 11). -/
def Obligations.ClearAllZeroesTheBuffer : Prop :=
  (∀ (ds : List Word), decode (0x40000000 :: ds) = .command .clearAll 1) ∧
  ∀ s : State, s.buf.wf →
    ∃ m : Memory, exec .clearAll s = .next (withResult .ok { s with buf := m }) ∧ m = State.reset.buf ∧
      ∀ r, m.read r = 0x00

/-- fillAll leaves every row 0xFF and changes nothing else; a following flush sends 0x00 and sixteen 0xFF bytes.
40_buffer_codec.md R86. A buffer is any list in the model's canonical form (assumption log
11). -/
def Obligations.FillAllLightsEveryLamp : Prop :=
  (∀ (ds : List Word), decode (0x50000000 :: ds) = .command .fillAll 1) ∧
  ∀ s : State, s.buf.wf →
    ∃ m : Memory, exec .fillAll s = .next (withResult .ok { s with buf := m }) ∧ (∀ r, m.read r = 0xFF) ∧
      ∀ u, exec .flush { s with buf := m } = .next u →
        (busBytes (newOutputs s u)).head? = some (0x00 :: List.replicate 16 0xFF)

/-- No codec command changes anything but `buf` and the result port, none emits a transaction or depends on the time
input, and with an invalid coordinate the buffer is unchanged (40_buffer_codec.md R87). That none loses the buffer's
canonical form is the model's own clause (assumption log 11). -/
def Obligations.CodecCommandsChangeOnlyTheBuffer : Prop :=
  ∀ (i : Instr) (s : State), isCodec i = true →
    ∃ m : Memory, (∀ t : Word, exec i { s with now := t } =
        .next (withResult .ok { s with now := t, buf := m })) ∧
      (s.buf.wf → m.wf) ∧ (invalidCoordinate i = true → m = s.buf)

/-! ## Device-state commands -/

/-- writeString replaces the buffer by `writeStringF` of it, in one step, with status OK, and sends nothing; an invalid
display changes nothing; the rows of the other display keep their values (41_device_state.md R100). That the new buffer
is in its canonical form is the model's own clause (assumption log 11). -/
def Obligations.WriteStringShowsATextOnOneDisplay : Prop :=
  (∀ (w : Word) (ds : List Word), w &&& 0xFF00FF00 = 0x60000000 →
    ((w.extractLsb' 0 8).toNat + 3) / 4 ≤ ds.length →
      decode (w :: ds) = .command (.writeString (w.extractLsb' 16 8) (textOf (w.extractLsb' 0 8).toNat ds))
        (1 + ((w.extractLsb' 0 8).toNat + 3) / 4)) ∧
  ∀ (display : Byte) (text : List Byte) (s : State), s.buf.wf →
    exec (.writeString display text) s =
        .next (withResult .ok { s with buf := writeStringF s.cfg s.buf display text }) ∧
      (writeStringF s.cfg s.buf display text).wf ∧
      (¬ display < 2 → writeStringF s.cfg s.buf display text = s.buf) ∧
      ∀ r : BitVec 4, r.toNat / 8 ≠ display.toNat →
        (writeStringF s.cfg s.buf display text).read r = s.buf.read r

/-- The model's scan of a text is the loop of the pseudocode: after the clear, index `i` and slot, the dot consumed with
the character it follows; a character is recognized when it is not the dot and GLYPH is defined at it.
41_device_state.md R101. -/
def Obligations.WriteStringFollowsThePseudocode : Prop :=
  ∀ (c : Config) (m : Memory) (display : Byte) (text : List Byte),
    writeStringF c m display text = textLoop c display text text.length 0 0 (clearDisplayF m display) ∧
      ∀ (ch : Byte) (g : BitVec 7), recognized c ch = some g ↔ ch ≠ 0x2E ∧ glyph c ch = some g

/-- Corner cases of writeString: the empty text only clears; a leading dot, a second dot, and a dot after an
unrecognized character are dropped; with 8 slots filled only the dot of the 8th character is still read.
41_device_state.md R102. -/
def Obligations.WriteStringCornerCases : Prop :=
  ∀ (c : Config) (m : Memory) (d : Byte) (text : List Byte),
    writeStringF c m d [] = clearDisplayF m d ∧
      writeStringF c m d (dotChar :: text) = writeStringF c m d text ∧
      (∀ ch g, recognized c ch = some g →
        writeStringF c m d (ch :: dotChar :: dotChar :: text) = writeStringF c m d (ch :: dotChar :: text)) ∧
      (∀ ch g x, recognized c ch = some g → recognized c x = none → x ≠ dotChar → text.head? ≠ some dotChar →
        writeStringF c m d (ch :: x :: dotChar :: text) = writeStringF c m d (ch :: text)) ∧
      (∀ full : List Byte, full.length = 8 → (∀ ch ∈ full, (recognized c ch).isSome) →
        writeStringF c m d (full ++ dotChar :: text) = writeStringF c m d (full ++ [dotChar]) ∧
          (text.head? ≠ some dotChar → writeStringF c m d (full ++ text) = writeStringF c m d full))

/-- The two glyphs the source fixes hold of every table, and the dot is never a glyph. 00_scope.md R10,
41_device_state.md R101. -/
def Obligations.GlyphsOfOneAndTwoAreFixed : Prop :=
  ∀ c : Config, recognized c 0x31 = some 0x06 ∧ recognized c 0x32 = some 0x5B ∧ recognized c 0x2E = none

/-- flush: one transaction of 17 bytes, RAM_BASE and the rows in order, and the status of its answer; nothing else
changes. 41_device_state.md R103, 30_encoding.md R74. -/
def Obligations.FlushSendsTheWholeBuffer : Prop :=
  (∀ (ds : List Word), decode (0x70000000 :: ds) = .command .flush 1) ∧
  ∀ s : State, s.nextReply ≠ .never →
    exec .flush s = .next (withResult (if s.nextReply = .ok then .ok else .transportError)
      (withBus (0x00 :: rowsOf s.buf) s))

/-- setBrightness: the level clamped to 15 is stored whatever the bus answers and sent as one byte, the status is that of
the answer, nothing else changes. 41_device_state.md R104, R105. -/
def Obligations.SetBrightnessStoresAndSendsTheClampedLevel : Prop :=
  (∀ (w : Word) (ds : List Word), w &&& 0xFFFFFF00 = 0x80000000 →
    decode (w :: ds) = .command (.setBrightness (w.extractLsb' 0 8)) 1) ∧
  ∀ (level : Byte) (s : State), s.nextReply ≠ .never →
    ∃ lv : BitVec 4, lv.toNat = min level.toNat 15 ∧
      exec (.setBrightness level) s =
        .next (withResult (if s.nextReply = .ok then .ok else .transportError)
          (withBus [s.cfg.brightBase ||| lv.setWidth 8] { s with brightness := lv }))

/-- configure: oscillator enable, display enable, brightness 15, in that order, stopping at the first transaction
answered `err` with TRANSPORT_ERROR; `brightness` is 15 exactly where the third was reached. 41_device_state.md R106. -/
def Obligations.ConfigureStopsAtTheFirstFailure : Prop :=
  (∀ (ds : List Word), decode (0x90000000 :: ds) = .command .configure 1) ∧
  ∀ s : State,
    (s.nextReply = .err →
      exec .configure s = .next (withResult .transportError (withBus [s.cfg.oscOnCmd] s))) ∧
    ∀ s1, s1 = withBus [s.cfg.oscOnCmd] s → s.nextReply = .ok →
      (s1.nextReply = .err →
        exec .configure s = .next (withResult .transportError (withBus [s.cfg.dispOnCmd] s1))) ∧
      ∀ s2, s2 = withBus [s.cfg.dispOnCmd] s1 → s1.nextReply = .ok → s2.nextReply ≠ .never →
        exec .configure s = .next (withResult (if s2.nextReply = .ok then .ok else .transportError)
          (withBus [s.cfg.brightBase ||| 0x0F] { s2 with brightness := 15 }))

/-- The brightness byte is `BRIGHT_BASE | level`, its low nibble is the level, and no two levels share a byte; level 0
sends `BRIGHT_BASE`. 30_encoding.md R72, 00_scope.md R8. -/
def Obligations.BrightnessByteTellsTheLevel : Prop :=
  ∀ (c : Config) (lv lv' : BitVec 4),
    encodeBrightness c lv = c.brightBase ||| lv.setWidth 8 ∧ (encodeBrightness c lv).extractLsb' 0 4 = lv ∧
      (encodeBrightness c lv = encodeBrightness c lv' → lv = lv') ∧ encodeBrightness c 0 = c.brightBase

/-- A command reports TRANSPORT_ERROR exactly when one of its own transactions was answered `err`, and only flush,
setBrightness, configure and fadeTick can. (A blocking fade reports at its end: BlockingFadeRunsToItsEnd.)
60_exceptions.md R143, R144, 41_device_state.md R107. -/
def Obligations.TransportErrorMeansAFailedTransaction : Prop :=
  ∀ (i : Instr) (s t : State) (st : Status) (f : Bool), exec i s = .next t → .result st f ∈ newOutputs s t →
    (st = .transportError ↔ BusReply.err ∈ busRepliesOf (newOutputs s t)) ∧ st ≠ .illegalCommand ∧
      (st = .transportError → i = .flush ∨ (∃ level, i = .setBrightness level) ∨ i = .configure ∨ i = .fadeTick)

/-- Every event a step drives on the bus is addressed to I2C_ADDR and is one of the four payloads, a RAM write being
RAM_BASE and the buffer's rows in order; the record is only appended to; no step changes a parameter. 30_encoding.md R71,
R75. -/
def Obligations.EveryTransactionIsOneOfFourPayloads : Prop :=
  ∀ s t : State, step s = .next t →
    t.outputs = s.outputs ++ newOutputs s t ∧ t.cfg = s.cfg ∧ ∀ o ∈ newOutputs s t, o.legal s.cfg s.buf

/-- A change to the buffer reaches the chip only through a flush, the command's or the fade handoff's: after one answered
`ok` the chip's RAM is the rows sent, after any other it is unknown. At the dark point a tick and an internal step flush
once the brightness transaction before is answered. Whatever else a command or a step sends leaves what is known of the
RAM when all its transactions are answered `ok`, and leaves it unknown when one is not (20_memory.md R57,
70_reset_and_hazards.md R170, 93_implementation_defined.md I7). That the chip stores an acknowledged write is PRESUMED, and
that a transaction never answered counts with the failed ones is a DESIGN CHOICE (assumption log 16). -/
def Obligations.ChipRamFollowsOnlyTheFlush : Prop :=
  (∀ (i : Instr) (s t : State), exec i s = .next t →
    (i = .flush → s.nextReply = .ok → chipRam t.outputs = some (rowsOf s.buf)) ∧
      (i = .flush → s.nextReply ≠ .ok → chipRam t.outputs = none) ∧
      (i ≠ .flush → i ≠ .fadeTick →
        ((∀ r ∈ busRepliesOf (newOutputs s t), r = .ok) → chipRam t.outputs = chipRam s.outputs) ∧
          ((∃ r ∈ busRepliesOf (newOutputs s t), r ≠ .ok) → chipRam t.outputs = none))) ∧
  ∀ s u t : State,
    ((s = u ∧ exec .fadeTick u = .next t) ∨
      (s.hung = none ∧ s.blocking = true ∧ (∀ ts, s.turns ≠ .reset :: ts) ∧ u = takeTurn s ∧ step s = .next t)) →
    (u.fadeState = .fadingOut ∧ u.step = 0 ∧ u.delay ≤ u.now - u.last ∧ u.nextReply ≠ .never →
      ∀ a, a = withBus [u.cfg.brightBase] { u with last := u.now, brightness := 0 } →
        (a.nextReply = .ok → chipRam t.outputs = some (rowsOf s.buf)) ∧
          (a.nextReply ≠ .ok → chipRam t.outputs = none)) ∧
    (¬ (u.fadeState = .fadingOut ∧ u.step = 0 ∧ u.delay ≤ u.now - u.last ∧ u.nextReply ≠ .never) →
      ((∀ r ∈ busRepliesOf (newOutputs s t), r = .ok) → chipRam t.outputs = chipRam s.outputs) ∧
        ((∃ r ∈ busRepliesOf (newOutputs s t), r ≠ .ok) → chipRam t.outputs = none))

/-! ## The fade controller -/

/-- fadeStart arms an Idle block: FadingOut, step 15, the delay, `last` the time input; otherwise it is ignored,
including its delay. The status is OK and `fading` is 1; no transaction, nothing else changes.
42_fade_controller.md R121. -/
def Obligations.FadeStartArmsAnIdleBlockOnly : Prop :=
  (∀ (d : Word) (ds : List Word), decode (0xA0000000 :: d :: ds) = .command (.fadeStart d) 2) ∧
  ∀ (d : Word) (s : State),
    (s.fadeState = .idle → exec (.fadeStart d) s = .next
      { s with fadeState := .fadingOut, step := 15, delay := d, last := s.now,
               outputs := s.outputs ++ [.result .ok true] }) ∧
    (s.fadeState ≠ .idle → exec (.fadeStart d) s = .next { s with outputs := s.outputs ++ [.result .ok true] })

/-- The elapsed test, in numbers: (now - last) mod 2^32 is at least `delay`. 42_fade_controller.md R125. -/
def Obligations.ElapsedTimeIsModular : Prop :=
  ∀ s : State, elapsed s = true ↔ s.delay.toNat ≤ (2 ^ 32 + s.now.toNat - s.last.toNat) % 2 ^ 32

/-- A tick that makes no step: Idle reports (OK, 0), less than `delay` elapsed reports (OK, 1), and nothing else
changes. 42_fade_controller.md R122. -/
def Obligations.TickWithoutAStepChangesNothing : Prop :=
  (∀ (ds : List Word), decode (0xB0000000 :: ds) = .command .fadeTick 1) ∧
  ∀ s : State,
    (s.fadeState = .idle → exec .fadeTick s = .next { s with outputs := s.outputs ++ [.result .ok false] }) ∧
    (s.fadeState ≠ .idle → ¬ s.delay ≤ s.now - s.last →
      exec .fadeTick s = .next { s with outputs := s.outputs ++ [.result .ok true] })

/-- A tick that steps applies the brightness held in `step`, sets `last` to the time input, and moves the counter and the
state by the next-state table, with one transaction and the status of its answer; at the dark point the handoff flush
follows whatever the first answer was, and the status tells whether either failed. Nothing else changes.
42_fade_controller.md R120, R122, R123, R124. -/
def Obligations.TickStepsByTheNextStateTable : Prop :=
  ∀ s a : State, s.delay ≤ s.now - s.last → s.nextReply ≠ .never →
    a = withBus [s.cfg.brightBase ||| s.step.setWidth 8] { s with last := s.now, brightness := s.step } →
    (s.fadeState = .fadingOut → s.step ≠ 0 →
      exec .fadeTick s = .next (withResult (statusOf [s.nextReply]) { a with step := s.step - 1 })) ∧
    (s.fadeState = .fadingOut → s.step = 0 → a.nextReply ≠ .never →
      exec .fadeTick s = .next (withResult (statusOf [s.nextReply, a.nextReply])
        { withBus (0x00 :: rowsOf s.buf) a with fadeState := .fadingIn, step := 0 })) ∧
    (s.fadeState = .fadingIn → s.step ≠ 15 →
      exec .fadeTick s = .next (withResult (statusOf [s.nextReply]) { a with step := s.step + 1 })) ∧
    (s.fadeState = .fadingIn → s.step = 15 →
      exec .fadeTick s = .next (withResult (statusOf [s.nextReply]) { a with fadeState := .idle }))

/-- fadeBlocking on an Idle block arms it and closes the command port, with no result yet; otherwise it is ignored with
(OK, 1). 42_fade_controller.md R126, 10_state.md R29. -/
def Obligations.FadeBlockingArmsAndClosesThePort : Prop :=
  (∀ (d : Word) (ds : List Word), decode (0xC0000000 :: d :: ds) = .command (.fadeBlocking d) 2) ∧
  ∀ (d : Word) (s : State),
    (s.fadeState = .idle → ∃ t, exec (.fadeBlocking d) s = .next t ∧ t.ready = false ∧ t =
      { s with fadeState := .fadingOut, step := 15, delay := d, last := s.now, blocking := true,
               blockErr := false }) ∧
    (s.fadeState ≠ .idle → exec (.fadeBlocking d) s = .next { s with outputs := s.outputs ++ [.result .ok true] })

/-- While `blocking` = 1 no command is taken; a step is an internal step exactly when the time has elapsed, with the same
effect on the registers as a tick, and without the result; when it ends Idle it clears `blocking` and drives the result
once. Otherwise nothing but the environment's turn happens. 42_fade_controller.md R127. -/
def Obligations.BlockingStepsInsteadOfTakingCommands : Prop :=
  ∀ s u t : State, s.hung = none → s.blocking = true → (∀ ts, s.turns ≠ .reset :: ts) → u = takeTurn s →
    step s = .next t →
      t.received = u.received ∧ t.offered = u.offered ∧ t.buf = s.buf ∧ t.delay = s.delay ∧ t.now = u.now ∧
        (¬ u.delay ≤ u.now - u.last → t = u) ∧
        (u.delay ≤ u.now - u.last → s.fadeState ≠ .idle → (fadeStepF u).1 ≠ .never →
          (∃ v, exec .fadeTick u = .next v ∧ t.fadeState = v.fadeState ∧ t.step = v.step ∧ t.last = v.last ∧
            t.brightness = v.brightness ∧ t.busReplies = v.busReplies ∧ t.busDraws = v.busDraws ∧
            busBytes (newOutputs s t) = busBytes (newOutputs u v)) ∧
          t.hung = none ∧ t.blocking = decide (t.fadeState ≠ .idle) ∧
          (newOutputs s t).filter Output.isResult =
            if t.fadeState = .idle then
              [.result (if s.blockErr ∨ (fadeStepF u).1 = .err then .transportError else .ok) false]
            else [])

/-- A whole blocking fade: with the environment answering every transaction and the time input taking 32 values each at
least the delay after the last transition, the command ends 32 internal steps after it was taken, Idle, with brightness
15 and step 15, after exactly the 33 payloads in order, with one result, TRANSPORT_ERROR exactly if some transaction was
answered `err`. 42_fade_controller.md R126, R128. -/
def Obligations.BlockingFadeRunsToItsEnd : Prop :=
  ∀ (s : State) (d : Word) (times : List Word) (rest : List Turn),
    s.fadeState = .idle → s.hung = none → AllAnswered s → times.length = 32 → Spaced d s.now times →
    s.turns = times.map (fun t => Turn.run t []) ++ rest →
      ∃ a t : State, exec (.fadeBlocking d) s = .next a ∧ Host.Core.run Sys2Proof.core 32 a = .next t ∧
        t.fadeState = .idle ∧ t.brightness = 15 ∧ t.step = 15 ∧ t.blocking = false ∧ t.hung = none ∧
        some t.last = times.getLast? ∧ t.delay = d ∧ t.buf = s.buf ∧ t.received = s.received ∧
        t.offered = s.offered ∧ t.turns = rest ∧
        busBytes (newOutputs s t) = fadePayloads s.cfg (rowsOf s.buf) ∧
        (newOutputs s t).filter Output.isResult =
          [.result (statusOf (busRepliesOf (newOutputs s t))) false]

/-- A whole polled fade: 32 ticks, each at least the delay after the last transition, take an armed block to Idle with
brightness 15 and step 15, with exactly the 33 payloads in order, one result a tick, whatever the bus answers.
42_fade_controller.md R128. -/
def Obligations.PolledFadeRunsToItsEnd : Prop :=
  ∀ (s : State) (times : List Word), s.fadeState = .fadingOut → s.step = 15 → s.hung = none → AllAnswered s →
    times.length = 32 → Spaced s.delay s.last times →
      (tickAt times s).fadeState = .idle ∧ (tickAt times s).brightness = 15 ∧ (tickAt times s).step = 15 ∧
        (tickAt times s).hung = none ∧ (tickAt times s).buf = s.buf ∧ some (tickAt times s).last = times.getLast? ∧
        busBytes (newOutputs s (tickAt times s)) = fadePayloads s.cfg (rowsOf s.buf) ∧
        ((newOutputs s (tickAt times s)).filter Output.isResult).length = 32

/-- Transport errors never change the course of a fade: two states that differ only in what the environment answers,
and in the record of outputs, step to the same registers. 42_fade_controller.md R129. -/
def Obligations.TransportErrorsDoNotChangeTheCourse : Prop :=
  ∀ (s t u : State) (os : List Output) (rs : List BusReply) (n : Nat) (blocked : Bool),
    AllAnswered s → BusReply.never ∉ rs → s.fadeState ≠ .idle →
    exec .fadeTick s = .next t →
    exec .fadeTick { s with outputs := os, busReplies := rs, busDraws := n, blockErr := blocked } = .next u →
      SameFade { t with blockErr := blocked } u ∧ u.brightness = t.brightness ∧ u.buf = t.buf ∧ u.hung = t.hung ∧
        SamePorts t u

/-- The handoff flush: a tick emits a RAM write exactly when it steps in FadingOut at step 0 and its brightness
transaction is answered, after that transaction and even if it was answered `err`, with the rows as they stand.
42_fade_controller.md R124. -/
def Obligations.HandoffFlushStandsAtTheDarkPoint : Prop :=
  ∀ s t : State, exec .fadeTick s = .next t →
    ((∃ bytes ∈ busBytes (newOutputs s t), bytes.length = 17) ↔
      s.fadeState = .fadingOut ∧ s.step = 0 ∧ s.delay ≤ s.now - s.last ∧ s.nextReply ≠ .never) ∧
    (s.fadeState = .fadingOut ∧ s.step = 0 ∧ s.delay ≤ s.now - s.last ∧ s.nextReply ≠ .never →
      busBytes (newOutputs s t) = [[s.cfg.brightBase], 0x00 :: rowsOf s.buf])

/-- Only ticks move an armed fade: every other command leaves its state, step, timestamp and delay as they are, so an
abandoned fade stays, and every fadeStart and fadeBlocking is ignored. 42_fade_controller.md R130,
70_reset_and_hazards.md R167. -/
def Obligations.OnlyTicksMoveAnArmedFade : Prop :=
  ∀ (i : Instr) (s t : State), s.fadeState ≠ .idle → i ≠ .fadeTick → exec i s = .next t →
    SameFade s t ∧
      ((∃ d, i = .fadeStart d ∨ i = .fadeBlocking d) →
        t = { s with outputs := s.outputs ++ [.result .ok true] })

/-- A level that setBrightness, or a configure that reaches its third transaction, sets during a fade lasts through every
command that is not one of the two and every tick that makes no step, until the next fade step, which overwrites it with
its own; a step that ends the fade leaves 15. 70_reset_and_hazards.md R166. -/
def Obligations.FadeStepOverwritesASetLevel : Prop :=
  ∀ (s t : State) (i : Instr) (lv : BitVec 4), s.fadeState ≠ .idle → exec i s = .next t →
    ((∃ level : Byte, i = .setBrightness level ∧ lv.toNat = min level.toNat 15) ∨
      (i = .configure ∧ lv = 15 ∧ s.nextReply = .ok ∧ (withBus [s.cfg.oscOnCmd] s).nextReply = .ok)) →
    ∀ js : List (Word × Instr),
      (∀ p ∈ js, p.2 ≠ .configure ∧ (∀ level, p.2 ≠ .setBrightness level) ∧
        (p.2 = .fadeTick → ¬ s.delay ≤ p.1 - s.last)) →
      (issueAt js t).brightness = lv ∧
        ∀ (now : Word) (u : State), s.delay ≤ now - s.last →
          exec .fadeTick { issueAt js t with now := now } = .next u →
            u.brightness = s.step ∧ (u.fadeState = .idle → u.brightness = 15)

/-- Fade transitions are at least `delay` apart: a step that moves an armed fade, a reset apart, happens only when that
much time has elapsed since the last transition. 42_fade_controller.md R125, 70_reset_and_hazards.md R172. -/
def Obligations.FadeMovesOnlyAfterTheDelay : Prop :=
  ∀ s t : State, s.fadeState ≠ .idle → (∀ ts, s.turns ≠ .reset :: ts) → step s = .next t →
    (t.fadeState, t.step, t.last) ≠ (s.fadeState, s.step, s.last) →
      s.delay ≤ (takeTurn s).now - s.last ∧ t.last = (takeTurn s).now ∧ t.delay = s.delay

/-- A time input that steps backwards by `k` looks like an elapsed time of 2^32 - k. 70_reset_and_hazards.md R168. -/
def Obligations.TimeGoingBackwardsLooksLikeALongTime : Prop :=
  ∀ (s : State) (k : Nat), 0 < k → k < 2 ^ 32 → s.now = s.last - BitVec.ofNat 32 k →
    (elapsed s = true ↔ s.delay.toNat ≤ 2 ^ 32 - k)

/-! ## Errors and ports -/

/-- InvalidCoordinate: the command completes with status OK and changes nothing. 60_exceptions.md R141. -/
def Obligations.InvalidCoordinateIsSilent : Prop :=
  ∀ (i : Instr) (s : State), invalidCoordinate i = true → exec i s = .next (withResult .ok s)

/-- Every command that ends drives the result port once, last of all, with the `fading` bit as it stands after the
command; a fadeBlocking just armed has not ended, nor has a command that waits for ever for a bus answer.
10_state.md R31, R32. -/
def Obligations.EveryCommandDrivesOneResult : Prop :=
  ∀ (i : Instr) (s t : State), s.hung = none → exec i s = .next t →
    (t.hung = none ∧ ¬ ((∃ d, i = .fadeBlocking d) ∧ s.fadeState = .idle) →
      ∃ st, (newOutputs s t).getLast? = some (.result st (t.fadeState != .idle)) ∧
        (newOutputs s t).filter Output.isResult = [.result st (t.fadeState != .idle)]) ∧
    (t.hung ≠ none ∨ ((∃ d, i = .fadeBlocking d) ∧ s.fadeState = .idle) →
      (newOutputs s t).filter Output.isResult = [])

/-- A transaction the environment never answers leaves the block waiting: a command hangs exactly when one of its
transactions is never answered, that transaction is the last thing driven, no result is, and the observation port shows
what it showed before the command; a command over the bus whose first transaction is never answered does hang; and until
a reset no step of a hung block changes anything but what the environment does. 60_exceptions.md R147, 10_state.md
R33. -/
def Obligations.UnansweredTransactionHangsTheBlock : Prop :=
  (∀ (i : Instr) (s t : State), s.hung = none → exec i s = .next t →
    (t.hung ≠ none ↔ BusReply.never ∈ busRepliesOf (newOutputs s t)) ∧
      (t.hung ≠ none → t.ready = false ∧ t.observe = s.observe ∧
        (newOutputs s t).filter Output.isResult = [] ∧
        ∃ bytes, (newOutputs s t).getLast? = some (.bus s.cfg.i2cAddr bytes .never)) ∧
      (s.nextReply = .never →
        (i = .flush ∨ (∃ level, i = .setBrightness level) ∨ i = .configure ∨
          (i = .fadeTick ∧ s.fadeState ≠ .idle ∧ s.delay ≤ s.now - s.last)) → t.hung ≠ none)) ∧
  (∀ s : State, s.hung ≠ none → (∀ ts, s.turns ≠ .reset :: ts) → step s = .next (takeTurn s))

/-- Where each command over the bus waits when a transaction is never answered: the transaction is driven, what the
command wrote before it stays written, no result is driven, and the observation port keeps what it showed; an internal
step of a blocking fade waits in the same way, with `blocking` still 1. 60_exceptions.md R147, 41_device_state.md R103,
R104, R106, 42_fade_controller.md R123, R127. (The latched port is the model's
reading of 10_state.md R33, assumption logs 3 and 19.) -/
def Obligations.UnansweredCommandsWaitWithTheirEffectsMade : Prop :=
  ∀ s : State,
    (s.nextReply = .never →
      exec .flush s = .next { withBus (0x00 :: rowsOf s.buf) s with hung := some s.observe } ∧
      (∀ level : Byte, ∃ lv : BitVec 4, lv.toNat = min level.toNat 15 ∧ exec (.setBrightness level) s =
        .next { withBus [s.cfg.brightBase ||| lv.setWidth 8] { s with brightness := lv } with
                hung := some s.observe }) ∧
      exec .configure s = .next { withBus [s.cfg.oscOnCmd] s with hung := some s.observe } ∧
      (s.fadeState ≠ .idle → s.delay ≤ s.now - s.last → exec .fadeTick s =
        .next { withBus [s.cfg.brightBase ||| s.step.setWidth 8] { s with last := s.now, brightness := s.step } with
                hung := some s.observe })) ∧
    (∀ s1, s1 = withBus [s.cfg.oscOnCmd] s → s.nextReply = .ok →
      (s1.nextReply = .never →
        exec .configure s = .next { withBus [s.cfg.dispOnCmd] s1 with hung := some s.observe }) ∧
      ∀ s2, s2 = withBus [s.cfg.dispOnCmd] s1 → s1.nextReply = .ok → s2.nextReply = .never →
        exec .configure s = .next { withBus [s.cfg.brightBase ||| 0x0F] { s2 with brightness := 15 } with
                                    hung := some s.observe }) ∧
    (∀ a, a = withBus [s.cfg.brightBase] { s with last := s.now, brightness := 0 } → s.fadeState = .fadingOut →
      s.step = 0 → s.delay ≤ s.now - s.last → s.nextReply ≠ .never → a.nextReply = .never →
        exec .fadeTick s = .next { withBus (0x00 :: rowsOf s.buf) a with hung := some s.observe }) ∧
    (∀ u, u = takeTurn s → s.hung = none → s.blocking = true → (∀ ts, s.turns ≠ .reset :: ts) →
      u.fadeState ≠ .idle → u.delay ≤ u.now - u.last →
        (u.nextReply = .never → step s =
          .next { withBus [u.cfg.brightBase ||| u.step.setWidth 8] { u with last := u.now, brightness := u.step } with
                  hung := some s.observe }) ∧
        ∀ a, a = withBus [u.cfg.brightBase] { u with last := u.now, brightness := 0 } → u.fadeState = .fadingOut →
          u.step = 0 → u.nextReply ≠ .never → a.nextReply = .never →
            step s = .next { withBus (0x00 :: rowsOf u.buf) a with hung := some s.observe })

/-- The codes of the status (OK 0, TRANSPORT_ERROR 1, ILLEGAL_COMMAND 2) and of `fadeState` (Idle 0b00, FadingOut 0b01,
FadingIn 0b10); the value 3 is neither a status nor a state. 60_exceptions.md R144, 10_state.md R25. -/
def Obligations.StatusAndStateCodes : Prop :=
  Status.code .ok = 0 ∧ Status.code .transportError = 1 ∧ Status.code .illegalCommand = 2 ∧
    (∀ st : Status, st.code ≠ 3) ∧ FadeState.code .idle = 0b00 ∧ FadeState.code .fadingOut = 0b01 ∧
    FadeState.code .fadingIn = 0b10 ∧ ∀ f : FadeState, f.code ≠ 0b11

/-- The observation port shows the buffer, the brightness and the fade state of a block that does not hang, after every
command that ends and after every internal step; the arming of a blocking fade leaves it as it was until the first
internal step, and an internal step that hangs leaves it as it was. The last two are the model's reading of 10_state.md
R33 (DEDUCED, assumption logs 24 and 19). -/
def Obligations.ObservationPortShowsThreeElements : Prop :=
  ∀ s : State, s.hung = none →
    (¬ (s.blocking = true ∧ s.fadeState = .fadingOut ∧ s.step = 15) →
      s.observe = { buf := s.buf, brightness := s.brightness, fadeState := s.fadeState }) ∧
    (∀ (i : Instr) (t : State), exec i s = .next t → s.blocking = false → t.hung = none →
      (¬ ((∃ d, i = .fadeBlocking d) ∧ s.fadeState = .idle) →
        t.observe = { buf := t.buf, brightness := t.brightness, fadeState := t.fadeState }) ∧
      ((∃ d, i = .fadeBlocking d) ∧ s.fadeState = .idle → t.observe = s.observe)) ∧
    (s.delay ≤ s.now - s.last → (internalStep s).hung = none →
      (internalStep s).observe =
        { buf := (internalStep s).buf, brightness := (internalStep s).brightness,
          fadeState := (internalStep s).fadeState }) ∧
    (¬ s.delay ≤ s.now - s.last → (internalStep s).observe = s.observe) ∧
    ((internalStep s).hung ≠ none → (internalStep s).observe = s.observe)

/-- Only fadeStart, fadeTick and fadeBlocking read the time input: any other command does the same at any time.
60_exceptions.md R153. -/
def Obligations.OnlyFadeCommandsReadTheTime : Prop :=
  ∀ (i : Instr) (s t : State) (now : Word), i ≠ .fadeTick → (∀ d, i ≠ .fadeStart d) → (∀ d, i ≠ .fadeBlocking d) →
    exec i s = .next t → exec i { s with now := now } = .next { t with now := now }

/-- Which commands write which element: `buf` the five codec commands and writeString; `brightness` setBrightness,
configure and fadeTick; `fadeState` and `last` the three fade commands, `step` likewise, `delay` fadeStart and
fadeBlocking, `blocking` fadeBlocking. (The internal steps: BlockingStepsInsteadOfTakingCommands; reset:
ResetEventRestoresEveryElement.) 10_state.md R23 to R29. -/
def Obligations.ElementsAreWrittenOnlyByTheirCommands : Prop :=
  ∀ (i : Instr) (s t : State), exec i s = .next t →
    (t.buf ≠ s.buf → isCodec i = true ∨ ∃ d text, i = .writeString d text) ∧
      (t.brightness ≠ s.brightness → (∃ level, i = .setBrightness level) ∨ i = .configure ∨ i = .fadeTick) ∧
      (t.fadeState ≠ s.fadeState ∨ t.step ≠ s.step ∨ t.last ≠ s.last →
        (∃ d, i = .fadeStart d) ∨ i = .fadeTick ∨ ∃ d, i = .fadeBlocking d) ∧
      (t.delay ≠ s.delay → s.fadeState = .idle ∧ ((∃ d, i = .fadeStart d) ∨ ∃ d, i = .fadeBlocking d)) ∧
      (t.blocking ≠ s.blocking ∨ t.blockErr ≠ s.blockErr → ∃ d, i = .fadeBlocking d) ∧ SamePorts s t

/-! ## Reset and invariants -/

/-- The values after reset. 10_state.md R34. -/
def Obligations.ResetStateHasTheResetValues : Prop :=
  (∀ r, State.reset.buf.read r = 0x00) ∧ State.reset.brightness = 0 ∧ State.reset.fadeState = .idle ∧
    State.reset.step = 0 ∧ State.reset.last = 0 ∧ State.reset.delay = 0 ∧ State.reset.blocking = false ∧
    State.reset.ready = true

/-- The reset event sets every element to its reset value, makes the command port ready, discards a partly received
command, and drives nothing on the bus or the result port, amid a blocking fade too (70_reset_and_hazards.md R160). That it
also ends a wait for a bus answer is the model's reading (assumption logs 3 and 13, DEDUCED). -/
def Obligations.ResetEventRestoresEveryElement : Prop :=
  ∀ (s : State) (ts : List Turn), s.turns = .reset :: ts →
    ∃ t, step s = .next t ∧ t.buf = State.reset.buf ∧ t.brightness = 0 ∧ t.fadeState = .idle ∧ t.step = 0 ∧
      t.last = 0 ∧ t.delay = 0 ∧ t.blocking = false ∧ t.ready = true ∧ t.received = [] ∧
      t.outputs = s.outputs

/-- The state after reset meets the invariant. Its clause that a running blocking fade is not Idle is 10_state.md R35; the
others are the model's own: the canonical form of the buffer (assumption log 11), the error of a blocking fade only while
one runs (log 7, which marks its reset value as the model's), the words received never a whole command (logs 8 and 9). -/
def Obligations.ResetStateMeetsTheInvariant : Prop := State.reset.Inv

/-- Every step from a state that meets the invariant leads to one that meets it: a running blocking fade is never Idle
(10_state.md R35); and the model's own clauses: the buffer keeps its canonical form (assumption log 11), the error of a
blocking fade stands only while one runs (log 7), and the words received are never a whole command (logs 8 and 9). -/
def Obligations.EveryStepKeepsTheInvariant : Prop :=
  ∀ s t : State, s.Inv → step s = .next t → t.Inv

/-! ## Assembly syntax -/

/-- Every mnemonic with operands of its kinds and number: the operand list is refused exactly when an operand does not
fit its field (a display, position, position16, pattern or level above 255, a dot that is not 0 or 1, a delay above
2^32 - 1, a text above 255 bytes), an out-of-range coordinate that fits being kept; the pseudo-instructions' expansions;
and a line whose tokens are a mnemonic and comma-separated operands assembles to the command of its operand list, or is
refused with it. How the bytes of a line fall into tokens and numbers is the model's choice (assumption log 17), and no
clause speaks of it. 30_encoding.md R76, R77. -/
def Obligations.AssemblerRefusesOnlyWhatDoesNotFit : Prop :=
  (∀ (d p pat dot : Nat) (i : Instr),
    (commandOf (.command .setDigit) [.number d, .number p, .number pat, .number dot] = some i ↔
      d ≤ 255 ∧ p ≤ 255 ∧ pat ≤ 255 ∧ dot ≤ 1 ∧
        i = .setDigit (BitVec.ofNat 8 d) (BitVec.ofNat 8 p) (BitVec.ofNat 8 pat) (dot == 1)) ∧
    (commandOf (.command .setDigit16) [.number p, .number pat, .number dot] = some i ↔
      p ≤ 255 ∧ pat ≤ 255 ∧ dot ≤ 1 ∧ i = .setDigit16 (BitVec.ofNat 8 p) (BitVec.ofNat 8 pat) (dot == 1)) ∧
    (commandOf (.command .clearDisplay) [.number d] = some i ↔ d ≤ 255 ∧ i = .clearDisplay (BitVec.ofNat 8 d)) ∧
    (commandOf (.command .setBrightness) [.number d] = some i ↔ d ≤ 255 ∧ i = .setBrightness (BitVec.ofNat 8 d)) ∧
    (∀ text : List Byte, commandOf (.command .writeString) [.number d, .text text] = some i ↔
      d ≤ 255 ∧ text.length ≤ 255 ∧ i = .writeString (BitVec.ofNat 8 d) text) ∧
    (commandOf (.command .fadeStart) [.number d] = some i ↔ d < 2 ^ 32 ∧ i = .fadeStart (BitVec.ofNat 32 d)) ∧
    (commandOf (.command .fadeBlocking) [.number d] = some i ↔ d < 2 ^ 32 ∧ i = .fadeBlocking (BitVec.ofNat 32 d)) ∧
    (commandOf .blankDigit [.number d, .number p] = some i ↔
      d ≤ 255 ∧ p ≤ 255 ∧ i = .setDigit (BitVec.ofNat 8 d) (BitVec.ofNat 8 p) 0 false) ∧
    (commandOf .blankDigit16 [.number p] = some i ↔ p ≤ 255 ∧ i = .setDigit16 (BitVec.ofNat 8 p) 0 false)) ∧
  commandOf (.command .clearAll) [] = some .clearAll ∧ commandOf (.command .fillAll) [] = some .fillAll ∧
    commandOf (.command .flush) [] = some .flush ∧ commandOf (.command .configure) [] = some .configure ∧
    commandOf (.command .fadeTick) [] = some .fadeTick ∧ commandOf .brightMax [] = some (.setBrightness 15) ∧
  ∀ (line name : List Byte) (ts : List Token) (m : Mnemonic) (os : List Operand),
    scanLine line = some (.word name :: ts) → (name, m) ∈ mnemonics → operandsOf ts = some os →
      (∀ i, commandOf m os = some i → assembleLine line = .command i) ∧
        (commandOf m os = none → assembleLine line = .refusedLine)
end

