-- ==== Sys2Proof/Laws/State.lean ====
section
/-! SUPPORT. What each shared update of the state leaves in each field: one lemma per field and update, true by rfl, so
that no later proof unfolds a record update. -/

namespace Sys2Proof.Machine

/-! ### setBuf -/

@[simp] theorem setBuf_buf (s : State) (m : Memory) : (s.setBuf m).buf = m := rfl
@[simp] theorem setBuf_brightness (s : State) (m : Memory) : (s.setBuf m).brightness = s.brightness := rfl
@[simp] theorem setBuf_fadeState (s : State) (m : Memory) : (s.setBuf m).fadeState = s.fadeState := rfl
@[simp] theorem setBuf_step (s : State) (m : Memory) : (s.setBuf m).step = s.step := rfl
@[simp] theorem setBuf_last (s : State) (m : Memory) : (s.setBuf m).last = s.last := rfl
@[simp] theorem setBuf_delay (s : State) (m : Memory) : (s.setBuf m).delay = s.delay := rfl
@[simp] theorem setBuf_blocking (s : State) (m : Memory) : (s.setBuf m).blocking = s.blocking := rfl
@[simp] theorem setBuf_blockErr (s : State) (m : Memory) : (s.setBuf m).blockErr = s.blockErr := rfl
@[simp] theorem setBuf_hung (s : State) (m : Memory) : (s.setBuf m).hung = s.hung := rfl
@[simp] theorem setBuf_received (s : State) (m : Memory) : (s.setBuf m).received = s.received := rfl
@[simp] theorem setBuf_offered (s : State) (m : Memory) : (s.setBuf m).offered = s.offered := rfl
@[simp] theorem setBuf_now (s : State) (m : Memory) : (s.setBuf m).now = s.now := rfl
@[simp] theorem setBuf_outputs (s : State) (m : Memory) : (s.setBuf m).outputs = s.outputs := rfl
@[simp] theorem setBuf_cfg (s : State) (m : Memory) : (s.setBuf m).cfg = s.cfg := rfl
@[simp] theorem setBuf_turns (s : State) (m : Memory) : (s.setBuf m).turns = s.turns := rfl
@[simp] theorem setBuf_busReplies (s : State) (m : Memory) : (s.setBuf m).busReplies = s.busReplies := rfl
@[simp] theorem setBuf_timeDraws (s : State) (m : Memory) : (s.setBuf m).timeDraws = s.timeDraws := rfl
@[simp] theorem setBuf_busDraws (s : State) (m : Memory) : (s.setBuf m).busDraws = s.busDraws := rfl

/-! ### driveResult -/

@[simp] theorem driveResult_buf (st : Status) (s : State) : (driveResult st s).buf = s.buf := rfl
@[simp] theorem driveResult_brightness (st : Status) (s : State) : (driveResult st s).brightness = s.brightness := rfl
@[simp] theorem driveResult_fadeState (st : Status) (s : State) : (driveResult st s).fadeState = s.fadeState := rfl
@[simp] theorem driveResult_step (st : Status) (s : State) : (driveResult st s).step = s.step := rfl
@[simp] theorem driveResult_last (st : Status) (s : State) : (driveResult st s).last = s.last := rfl
@[simp] theorem driveResult_delay (st : Status) (s : State) : (driveResult st s).delay = s.delay := rfl
@[simp] theorem driveResult_blocking (st : Status) (s : State) : (driveResult st s).blocking = s.blocking := rfl
@[simp] theorem driveResult_blockErr (st : Status) (s : State) : (driveResult st s).blockErr = s.blockErr := rfl
@[simp] theorem driveResult_hung (st : Status) (s : State) : (driveResult st s).hung = s.hung := rfl
@[simp] theorem driveResult_received (st : Status) (s : State) : (driveResult st s).received = s.received := rfl
@[simp] theorem driveResult_offered (st : Status) (s : State) : (driveResult st s).offered = s.offered := rfl
@[simp] theorem driveResult_now (st : Status) (s : State) : (driveResult st s).now = s.now := rfl
@[simp] theorem driveResult_outputs (st : Status) (s : State) : (driveResult st s).outputs = s.outputs ++ [.result st (fading s)] := rfl
@[simp] theorem driveResult_cfg (st : Status) (s : State) : (driveResult st s).cfg = s.cfg := rfl
@[simp] theorem driveResult_turns (st : Status) (s : State) : (driveResult st s).turns = s.turns := rfl
@[simp] theorem driveResult_busReplies (st : Status) (s : State) : (driveResult st s).busReplies = s.busReplies := rfl
@[simp] theorem driveResult_timeDraws (st : Status) (s : State) : (driveResult st s).timeDraws = s.timeDraws := rfl
@[simp] theorem driveResult_busDraws (st : Status) (s : State) : (driveResult st s).busDraws = s.busDraws := rfl

/-! ### afterBus -/

@[simp] theorem afterBus_buf (p : Payload) (s : State) : (busWrite p s).2.buf = s.buf := rfl
@[simp] theorem afterBus_brightness (p : Payload) (s : State) : (busWrite p s).2.brightness = s.brightness := rfl
@[simp] theorem afterBus_fadeState (p : Payload) (s : State) : (busWrite p s).2.fadeState = s.fadeState := rfl
@[simp] theorem afterBus_step (p : Payload) (s : State) : (busWrite p s).2.step = s.step := rfl
@[simp] theorem afterBus_last (p : Payload) (s : State) : (busWrite p s).2.last = s.last := rfl
@[simp] theorem afterBus_delay (p : Payload) (s : State) : (busWrite p s).2.delay = s.delay := rfl
@[simp] theorem afterBus_blocking (p : Payload) (s : State) : (busWrite p s).2.blocking = s.blocking := rfl
@[simp] theorem afterBus_blockErr (p : Payload) (s : State) : (busWrite p s).2.blockErr = s.blockErr := rfl
@[simp] theorem afterBus_hung (p : Payload) (s : State) : (busWrite p s).2.hung = s.hung := rfl
@[simp] theorem afterBus_received (p : Payload) (s : State) : (busWrite p s).2.received = s.received := rfl
@[simp] theorem afterBus_offered (p : Payload) (s : State) : (busWrite p s).2.offered = s.offered := rfl
@[simp] theorem afterBus_now (p : Payload) (s : State) : (busWrite p s).2.now = s.now := rfl
@[simp] theorem afterBus_outputs (p : Payload) (s : State) : (busWrite p s).2.outputs = s.outputs ++ [.bus s.cfg.i2cAddr (p.bytes s.cfg) s.nextReply] := rfl
@[simp] theorem afterBus_cfg (p : Payload) (s : State) : (busWrite p s).2.cfg = s.cfg := rfl
@[simp] theorem afterBus_turns (p : Payload) (s : State) : (busWrite p s).2.turns = s.turns := rfl
@[simp] theorem afterBus_busReplies (p : Payload) (s : State) : (busWrite p s).2.busReplies = s.busReplies.tail := rfl
@[simp] theorem afterBus_timeDraws (p : Payload) (s : State) : (busWrite p s).2.timeDraws = s.timeDraws := rfl
@[simp] theorem afterBus_busDraws (p : Payload) (s : State) : (busWrite p s).2.busDraws = if s.busReplies.isEmpty then s.busDraws + 1 else s.busDraws := rfl

/-! ### applyBrightness -/

@[simp] theorem applyBrightness_buf (lv : BitVec 4) (s : State) : (applyBrightness lv s).2.buf = s.buf := rfl
@[simp] theorem applyBrightness_brightness (lv : BitVec 4) (s : State) : (applyBrightness lv s).2.brightness = lv := rfl
@[simp] theorem applyBrightness_fadeState (lv : BitVec 4) (s : State) : (applyBrightness lv s).2.fadeState = s.fadeState := rfl
@[simp] theorem applyBrightness_step (lv : BitVec 4) (s : State) : (applyBrightness lv s).2.step = s.step := rfl
@[simp] theorem applyBrightness_last (lv : BitVec 4) (s : State) : (applyBrightness lv s).2.last = s.last := rfl
@[simp] theorem applyBrightness_delay (lv : BitVec 4) (s : State) : (applyBrightness lv s).2.delay = s.delay := rfl
@[simp] theorem applyBrightness_blocking (lv : BitVec 4) (s : State) : (applyBrightness lv s).2.blocking = s.blocking := rfl
@[simp] theorem applyBrightness_blockErr (lv : BitVec 4) (s : State) : (applyBrightness lv s).2.blockErr = s.blockErr := rfl
@[simp] theorem applyBrightness_hung (lv : BitVec 4) (s : State) : (applyBrightness lv s).2.hung = s.hung := rfl
@[simp] theorem applyBrightness_received (lv : BitVec 4) (s : State) : (applyBrightness lv s).2.received = s.received := rfl
@[simp] theorem applyBrightness_offered (lv : BitVec 4) (s : State) : (applyBrightness lv s).2.offered = s.offered := rfl
@[simp] theorem applyBrightness_now (lv : BitVec 4) (s : State) : (applyBrightness lv s).2.now = s.now := rfl
@[simp] theorem applyBrightness_outputs (lv : BitVec 4) (s : State) : (applyBrightness lv s).2.outputs = s.outputs ++ [.bus s.cfg.i2cAddr (Payload.bytes s.cfg (.brightness lv)) s.nextReply] := rfl
@[simp] theorem applyBrightness_cfg (lv : BitVec 4) (s : State) : (applyBrightness lv s).2.cfg = s.cfg := rfl
@[simp] theorem applyBrightness_turns (lv : BitVec 4) (s : State) : (applyBrightness lv s).2.turns = s.turns := rfl
@[simp] theorem applyBrightness_busReplies (lv : BitVec 4) (s : State) : (applyBrightness lv s).2.busReplies = s.busReplies.tail := rfl
@[simp] theorem applyBrightness_timeDraws (lv : BitVec 4) (s : State) : (applyBrightness lv s).2.timeDraws = s.timeDraws := rfl
@[simp] theorem applyBrightness_busDraws (lv : BitVec 4) (s : State) : (applyBrightness lv s).2.busDraws = if s.busReplies.isEmpty then s.busDraws + 1 else s.busDraws := rfl

/-! ### flushBuffer -/

@[simp] theorem flushBuffer_buf (s : State) : (flushBuffer s).2.buf = s.buf := rfl
@[simp] theorem flushBuffer_brightness (s : State) : (flushBuffer s).2.brightness = s.brightness := rfl
@[simp] theorem flushBuffer_fadeState (s : State) : (flushBuffer s).2.fadeState = s.fadeState := rfl
@[simp] theorem flushBuffer_step (s : State) : (flushBuffer s).2.step = s.step := rfl
@[simp] theorem flushBuffer_last (s : State) : (flushBuffer s).2.last = s.last := rfl
@[simp] theorem flushBuffer_delay (s : State) : (flushBuffer s).2.delay = s.delay := rfl
@[simp] theorem flushBuffer_blocking (s : State) : (flushBuffer s).2.blocking = s.blocking := rfl
@[simp] theorem flushBuffer_blockErr (s : State) : (flushBuffer s).2.blockErr = s.blockErr := rfl
@[simp] theorem flushBuffer_hung (s : State) : (flushBuffer s).2.hung = s.hung := rfl
@[simp] theorem flushBuffer_received (s : State) : (flushBuffer s).2.received = s.received := rfl
@[simp] theorem flushBuffer_offered (s : State) : (flushBuffer s).2.offered = s.offered := rfl
@[simp] theorem flushBuffer_now (s : State) : (flushBuffer s).2.now = s.now := rfl
@[simp] theorem flushBuffer_outputs (s : State) : (flushBuffer s).2.outputs = s.outputs ++ [.bus s.cfg.i2cAddr (Payload.bytes s.cfg (.ramWrite (memRead s.buf 0 16))) s.nextReply] := rfl
@[simp] theorem flushBuffer_cfg (s : State) : (flushBuffer s).2.cfg = s.cfg := rfl
@[simp] theorem flushBuffer_turns (s : State) : (flushBuffer s).2.turns = s.turns := rfl
@[simp] theorem flushBuffer_busReplies (s : State) : (flushBuffer s).2.busReplies = s.busReplies.tail := rfl
@[simp] theorem flushBuffer_timeDraws (s : State) : (flushBuffer s).2.timeDraws = s.timeDraws := rfl
@[simp] theorem flushBuffer_busDraws (s : State) : (flushBuffer s).2.busDraws = if s.busReplies.isEmpty then s.busDraws + 1 else s.busDraws := rfl

/-! ### hang -/

@[simp] theorem hang_buf (before s : State) : (hang before s).buf = s.buf := rfl
@[simp] theorem hang_brightness (before s : State) : (hang before s).brightness = s.brightness := rfl
@[simp] theorem hang_fadeState (before s : State) : (hang before s).fadeState = s.fadeState := rfl
@[simp] theorem hang_step (before s : State) : (hang before s).step = s.step := rfl
@[simp] theorem hang_last (before s : State) : (hang before s).last = s.last := rfl
@[simp] theorem hang_delay (before s : State) : (hang before s).delay = s.delay := rfl
@[simp] theorem hang_blocking (before s : State) : (hang before s).blocking = s.blocking := rfl
@[simp] theorem hang_blockErr (before s : State) : (hang before s).blockErr = s.blockErr := rfl
@[simp] theorem hang_hung (before s : State) : (hang before s).hung = some before.observe := rfl
@[simp] theorem hang_received (before s : State) : (hang before s).received = s.received := rfl
@[simp] theorem hang_offered (before s : State) : (hang before s).offered = s.offered := rfl
@[simp] theorem hang_now (before s : State) : (hang before s).now = s.now := rfl
@[simp] theorem hang_outputs (before s : State) : (hang before s).outputs = s.outputs := rfl
@[simp] theorem hang_cfg (before s : State) : (hang before s).cfg = s.cfg := rfl
@[simp] theorem hang_turns (before s : State) : (hang before s).turns = s.turns := rfl
@[simp] theorem hang_busReplies (before s : State) : (hang before s).busReplies = s.busReplies := rfl
@[simp] theorem hang_timeDraws (before s : State) : (hang before s).timeDraws = s.timeDraws := rfl
@[simp] theorem hang_busDraws (before s : State) : (hang before s).busDraws = s.busDraws := rfl

/-! ### takeWords -/

@[simp] theorem takeWords_buf (n : Nat) (s : State) : (takeWords n s).buf = s.buf := rfl
@[simp] theorem takeWords_brightness (n : Nat) (s : State) : (takeWords n s).brightness = s.brightness := rfl
@[simp] theorem takeWords_fadeState (n : Nat) (s : State) : (takeWords n s).fadeState = s.fadeState := rfl
@[simp] theorem takeWords_step (n : Nat) (s : State) : (takeWords n s).step = s.step := rfl
@[simp] theorem takeWords_last (n : Nat) (s : State) : (takeWords n s).last = s.last := rfl
@[simp] theorem takeWords_delay (n : Nat) (s : State) : (takeWords n s).delay = s.delay := rfl
@[simp] theorem takeWords_blocking (n : Nat) (s : State) : (takeWords n s).blocking = s.blocking := rfl
@[simp] theorem takeWords_blockErr (n : Nat) (s : State) : (takeWords n s).blockErr = s.blockErr := rfl
@[simp] theorem takeWords_hung (n : Nat) (s : State) : (takeWords n s).hung = s.hung := rfl
@[simp] theorem takeWords_received (n : Nat) (s : State) : (takeWords n s).received = [] := rfl
@[simp] theorem takeWords_offered (n : Nat) (s : State) : (takeWords n s).offered = s.stream.drop n := rfl
@[simp] theorem takeWords_now (n : Nat) (s : State) : (takeWords n s).now = s.now := rfl
@[simp] theorem takeWords_outputs (n : Nat) (s : State) : (takeWords n s).outputs = s.outputs := rfl
@[simp] theorem takeWords_cfg (n : Nat) (s : State) : (takeWords n s).cfg = s.cfg := rfl
@[simp] theorem takeWords_turns (n : Nat) (s : State) : (takeWords n s).turns = s.turns := rfl
@[simp] theorem takeWords_busReplies (n : Nat) (s : State) : (takeWords n s).busReplies = s.busReplies := rfl
@[simp] theorem takeWords_timeDraws (n : Nat) (s : State) : (takeWords n s).timeDraws = s.timeDraws := rfl
@[simp] theorem takeWords_busDraws (n : Nat) (s : State) : (takeWords n s).busDraws = s.busDraws := rfl

/-! ### receiveWords -/

@[simp] theorem receiveWords_buf (s : State) : (receiveWords s).buf = s.buf := rfl
@[simp] theorem receiveWords_brightness (s : State) : (receiveWords s).brightness = s.brightness := rfl
@[simp] theorem receiveWords_fadeState (s : State) : (receiveWords s).fadeState = s.fadeState := rfl
@[simp] theorem receiveWords_step (s : State) : (receiveWords s).step = s.step := rfl
@[simp] theorem receiveWords_last (s : State) : (receiveWords s).last = s.last := rfl
@[simp] theorem receiveWords_delay (s : State) : (receiveWords s).delay = s.delay := rfl
@[simp] theorem receiveWords_blocking (s : State) : (receiveWords s).blocking = s.blocking := rfl
@[simp] theorem receiveWords_blockErr (s : State) : (receiveWords s).blockErr = s.blockErr := rfl
@[simp] theorem receiveWords_hung (s : State) : (receiveWords s).hung = s.hung := rfl
@[simp] theorem receiveWords_received (s : State) : (receiveWords s).received = s.stream := rfl
@[simp] theorem receiveWords_offered (s : State) : (receiveWords s).offered = [] := rfl
@[simp] theorem receiveWords_now (s : State) : (receiveWords s).now = s.now := rfl
@[simp] theorem receiveWords_outputs (s : State) : (receiveWords s).outputs = s.outputs := rfl
@[simp] theorem receiveWords_cfg (s : State) : (receiveWords s).cfg = s.cfg := rfl
@[simp] theorem receiveWords_turns (s : State) : (receiveWords s).turns = s.turns := rfl
@[simp] theorem receiveWords_busReplies (s : State) : (receiveWords s).busReplies = s.busReplies := rfl
@[simp] theorem receiveWords_timeDraws (s : State) : (receiveWords s).timeDraws = s.timeDraws := rfl
@[simp] theorem receiveWords_busDraws (s : State) : (receiveWords s).busDraws = s.busDraws := rfl

/-! ### deliver -/

@[simp] theorem deliver_buf (t : Word) (ws : List Word) (s : State) : (deliver t ws s).buf = s.buf := rfl
@[simp] theorem deliver_brightness (t : Word) (ws : List Word) (s : State) : (deliver t ws s).brightness = s.brightness := rfl
@[simp] theorem deliver_fadeState (t : Word) (ws : List Word) (s : State) : (deliver t ws s).fadeState = s.fadeState := rfl
@[simp] theorem deliver_step (t : Word) (ws : List Word) (s : State) : (deliver t ws s).step = s.step := rfl
@[simp] theorem deliver_last (t : Word) (ws : List Word) (s : State) : (deliver t ws s).last = s.last := rfl
@[simp] theorem deliver_delay (t : Word) (ws : List Word) (s : State) : (deliver t ws s).delay = s.delay := rfl
@[simp] theorem deliver_blocking (t : Word) (ws : List Word) (s : State) : (deliver t ws s).blocking = s.blocking := rfl
@[simp] theorem deliver_blockErr (t : Word) (ws : List Word) (s : State) : (deliver t ws s).blockErr = s.blockErr := rfl
@[simp] theorem deliver_hung (t : Word) (ws : List Word) (s : State) : (deliver t ws s).hung = s.hung := rfl
@[simp] theorem deliver_received (t : Word) (ws : List Word) (s : State) : (deliver t ws s).received = s.received := rfl
@[simp] theorem deliver_offered (t : Word) (ws : List Word) (s : State) : (deliver t ws s).offered = s.offered ++ ws := rfl
@[simp] theorem deliver_now (t : Word) (ws : List Word) (s : State) : (deliver t ws s).now = t := rfl
@[simp] theorem deliver_outputs (t : Word) (ws : List Word) (s : State) : (deliver t ws s).outputs = s.outputs := rfl
@[simp] theorem deliver_cfg (t : Word) (ws : List Word) (s : State) : (deliver t ws s).cfg = s.cfg := rfl
@[simp] theorem deliver_turns (t : Word) (ws : List Word) (s : State) : (deliver t ws s).turns = s.turns := rfl
@[simp] theorem deliver_busReplies (t : Word) (ws : List Word) (s : State) : (deliver t ws s).busReplies = s.busReplies := rfl
@[simp] theorem deliver_timeDraws (t : Word) (ws : List Word) (s : State) : (deliver t ws s).timeDraws = s.timeDraws := rfl
@[simp] theorem deliver_busDraws (t : Word) (ws : List Word) (s : State) : (deliver t ws s).busDraws = s.busDraws := rfl

/-! ### armFade -/

@[simp] theorem armFade_buf (d : Word) (s : State) : (armFade d s).buf = s.buf := rfl
@[simp] theorem armFade_brightness (d : Word) (s : State) : (armFade d s).brightness = s.brightness := rfl
@[simp] theorem armFade_fadeState (d : Word) (s : State) : (armFade d s).fadeState = .fadingOut := rfl
@[simp] theorem armFade_step (d : Word) (s : State) : (armFade d s).step = 15 := rfl
@[simp] theorem armFade_last (d : Word) (s : State) : (armFade d s).last = s.now := rfl
@[simp] theorem armFade_delay (d : Word) (s : State) : (armFade d s).delay = d := rfl
@[simp] theorem armFade_blocking (d : Word) (s : State) : (armFade d s).blocking = s.blocking := rfl
@[simp] theorem armFade_blockErr (d : Word) (s : State) : (armFade d s).blockErr = s.blockErr := rfl
@[simp] theorem armFade_hung (d : Word) (s : State) : (armFade d s).hung = s.hung := rfl
@[simp] theorem armFade_received (d : Word) (s : State) : (armFade d s).received = s.received := rfl
@[simp] theorem armFade_offered (d : Word) (s : State) : (armFade d s).offered = s.offered := rfl
@[simp] theorem armFade_now (d : Word) (s : State) : (armFade d s).now = s.now := rfl
@[simp] theorem armFade_outputs (d : Word) (s : State) : (armFade d s).outputs = s.outputs := rfl
@[simp] theorem armFade_cfg (d : Word) (s : State) : (armFade d s).cfg = s.cfg := rfl
@[simp] theorem armFade_turns (d : Word) (s : State) : (armFade d s).turns = s.turns := rfl
@[simp] theorem armFade_busReplies (d : Word) (s : State) : (armFade d s).busReplies = s.busReplies := rfl
@[simp] theorem armFade_timeDraws (d : Word) (s : State) : (armFade d s).timeDraws = s.timeDraws := rfl
@[simp] theorem armFade_busDraws (d : Word) (s : State) : (armFade d s).busDraws = s.busDraws := rfl

/-! ### markTransition -/

@[simp] theorem markTransition_buf (s : State) : (markTransition s).buf = s.buf := rfl
@[simp] theorem markTransition_brightness (s : State) : (markTransition s).brightness = s.brightness := rfl
@[simp] theorem markTransition_fadeState (s : State) : (markTransition s).fadeState = s.fadeState := rfl
@[simp] theorem markTransition_step (s : State) : (markTransition s).step = s.step := rfl
@[simp] theorem markTransition_last (s : State) : (markTransition s).last = s.now := rfl
@[simp] theorem markTransition_delay (s : State) : (markTransition s).delay = s.delay := rfl
@[simp] theorem markTransition_blocking (s : State) : (markTransition s).blocking = s.blocking := rfl
@[simp] theorem markTransition_blockErr (s : State) : (markTransition s).blockErr = s.blockErr := rfl
@[simp] theorem markTransition_hung (s : State) : (markTransition s).hung = s.hung := rfl
@[simp] theorem markTransition_received (s : State) : (markTransition s).received = s.received := rfl
@[simp] theorem markTransition_offered (s : State) : (markTransition s).offered = s.offered := rfl
@[simp] theorem markTransition_now (s : State) : (markTransition s).now = s.now := rfl
@[simp] theorem markTransition_outputs (s : State) : (markTransition s).outputs = s.outputs := rfl
@[simp] theorem markTransition_cfg (s : State) : (markTransition s).cfg = s.cfg := rfl
@[simp] theorem markTransition_turns (s : State) : (markTransition s).turns = s.turns := rfl
@[simp] theorem markTransition_busReplies (s : State) : (markTransition s).busReplies = s.busReplies := rfl
@[simp] theorem markTransition_timeDraws (s : State) : (markTransition s).timeDraws = s.timeDraws := rfl
@[simp] theorem markTransition_busDraws (s : State) : (markTransition s).busDraws = s.busDraws := rfl
@[simp] theorem markTransition_nextReply (s : State) : (markTransition s).nextReply = s.nextReply := rfl

/-! ### storeBrightness -/

@[simp] theorem storeBrightness_buf (lv : BitVec 4) (s : State) : (storeBrightness lv s).buf = s.buf := rfl
@[simp] theorem storeBrightness_brightness (lv : BitVec 4) (s : State) : (storeBrightness lv s).brightness = lv := rfl
@[simp] theorem storeBrightness_fadeState (lv : BitVec 4) (s : State) : (storeBrightness lv s).fadeState = s.fadeState := rfl
@[simp] theorem storeBrightness_step (lv : BitVec 4) (s : State) : (storeBrightness lv s).step = s.step := rfl
@[simp] theorem storeBrightness_last (lv : BitVec 4) (s : State) : (storeBrightness lv s).last = s.last := rfl
@[simp] theorem storeBrightness_delay (lv : BitVec 4) (s : State) : (storeBrightness lv s).delay = s.delay := rfl
@[simp] theorem storeBrightness_blocking (lv : BitVec 4) (s : State) : (storeBrightness lv s).blocking = s.blocking := rfl
@[simp] theorem storeBrightness_blockErr (lv : BitVec 4) (s : State) : (storeBrightness lv s).blockErr = s.blockErr := rfl
@[simp] theorem storeBrightness_hung (lv : BitVec 4) (s : State) : (storeBrightness lv s).hung = s.hung := rfl
@[simp] theorem storeBrightness_received (lv : BitVec 4) (s : State) : (storeBrightness lv s).received = s.received := rfl
@[simp] theorem storeBrightness_offered (lv : BitVec 4) (s : State) : (storeBrightness lv s).offered = s.offered := rfl
@[simp] theorem storeBrightness_now (lv : BitVec 4) (s : State) : (storeBrightness lv s).now = s.now := rfl
@[simp] theorem storeBrightness_outputs (lv : BitVec 4) (s : State) : (storeBrightness lv s).outputs = s.outputs := rfl
@[simp] theorem storeBrightness_cfg (lv : BitVec 4) (s : State) : (storeBrightness lv s).cfg = s.cfg := rfl
@[simp] theorem storeBrightness_turns (lv : BitVec 4) (s : State) : (storeBrightness lv s).turns = s.turns := rfl
@[simp] theorem storeBrightness_busReplies (lv : BitVec 4) (s : State) : (storeBrightness lv s).busReplies = s.busReplies := rfl
@[simp] theorem storeBrightness_timeDraws (lv : BitVec 4) (s : State) : (storeBrightness lv s).timeDraws = s.timeDraws := rfl
@[simp] theorem storeBrightness_busDraws (lv : BitVec 4) (s : State) : (storeBrightness lv s).busDraws = s.busDraws := rfl
@[simp] theorem storeBrightness_nextReply (lv : BitVec 4) (s : State) :
    (storeBrightness lv s).nextReply = s.nextReply := rfl

/-! ### resetBlock -/

@[simp] theorem resetBlock_buf (s : State) : (resetBlock s).buf = [] := rfl
@[simp] theorem resetBlock_brightness (s : State) : (resetBlock s).brightness = 0 := rfl
@[simp] theorem resetBlock_fadeState (s : State) : (resetBlock s).fadeState = .idle := rfl
@[simp] theorem resetBlock_step (s : State) : (resetBlock s).step = 0 := rfl
@[simp] theorem resetBlock_last (s : State) : (resetBlock s).last = 0 := rfl
@[simp] theorem resetBlock_delay (s : State) : (resetBlock s).delay = 0 := rfl
@[simp] theorem resetBlock_blocking (s : State) : (resetBlock s).blocking = false := rfl
@[simp] theorem resetBlock_blockErr (s : State) : (resetBlock s).blockErr = false := rfl
@[simp] theorem resetBlock_hung (s : State) : (resetBlock s).hung = none := rfl
@[simp] theorem resetBlock_received (s : State) : (resetBlock s).received = [] := rfl
@[simp] theorem resetBlock_offered (s : State) : (resetBlock s).offered = s.offered := rfl
@[simp] theorem resetBlock_now (s : State) : (resetBlock s).now = s.now := rfl
@[simp] theorem resetBlock_outputs (s : State) : (resetBlock s).outputs = s.outputs := rfl
@[simp] theorem resetBlock_cfg (s : State) : (resetBlock s).cfg = s.cfg := rfl
@[simp] theorem resetBlock_turns (s : State) : (resetBlock s).turns = s.turns := rfl
@[simp] theorem resetBlock_busReplies (s : State) : (resetBlock s).busReplies = s.busReplies := rfl
@[simp] theorem resetBlock_timeDraws (s : State) : (resetBlock s).timeDraws = s.timeDraws := rfl
@[simp] theorem resetBlock_busDraws (s : State) : (resetBlock s).busDraws = s.busDraws := rfl

/-! ### placeCommand -/

@[simp] theorem placeCommand_buf (ws : List Word) (s : State) : (placeCommand ws s).buf = s.buf := rfl
@[simp] theorem placeCommand_brightness (ws : List Word) (s : State) : (placeCommand ws s).brightness = s.brightness := rfl
@[simp] theorem placeCommand_fadeState (ws : List Word) (s : State) : (placeCommand ws s).fadeState = s.fadeState := rfl
@[simp] theorem placeCommand_step (ws : List Word) (s : State) : (placeCommand ws s).step = s.step := rfl
@[simp] theorem placeCommand_last (ws : List Word) (s : State) : (placeCommand ws s).last = s.last := rfl
@[simp] theorem placeCommand_delay (ws : List Word) (s : State) : (placeCommand ws s).delay = s.delay := rfl
@[simp] theorem placeCommand_blocking (ws : List Word) (s : State) : (placeCommand ws s).blocking = false := rfl
@[simp] theorem placeCommand_blockErr (ws : List Word) (s : State) : (placeCommand ws s).blockErr = s.blockErr := rfl
@[simp] theorem placeCommand_hung (ws : List Word) (s : State) : (placeCommand ws s).hung = none := rfl
@[simp] theorem placeCommand_received (ws : List Word) (s : State) : (placeCommand ws s).received = [] := rfl
@[simp] theorem placeCommand_offered (ws : List Word) (s : State) : (placeCommand ws s).offered = ws ++ s.offered := rfl
@[simp] theorem placeCommand_now (ws : List Word) (s : State) : (placeCommand ws s).now = s.now := rfl
@[simp] theorem placeCommand_outputs (ws : List Word) (s : State) : (placeCommand ws s).outputs = s.outputs := rfl
@[simp] theorem placeCommand_cfg (ws : List Word) (s : State) : (placeCommand ws s).cfg = s.cfg := rfl
@[simp] theorem placeCommand_turns (ws : List Word) (s : State) : (placeCommand ws s).turns = s.turns.dropWhile Turn.isReset := rfl
@[simp] theorem placeCommand_busReplies (ws : List Word) (s : State) : (placeCommand ws s).busReplies = s.busReplies := rfl
@[simp] theorem placeCommand_timeDraws (ws : List Word) (s : State) : (placeCommand ws s).timeDraws = s.timeDraws := rfl
@[simp] theorem placeCommand_busDraws (ws : List Word) (s : State) : (placeCommand ws s).busDraws = s.busDraws := rfl

/-! ### takeTurn -/

@[simp] theorem takeTurn_buf (s : State) : (takeTurn s).buf = s.buf := by unfold takeTurn; split <;> rfl
@[simp] theorem takeTurn_brightness (s : State) : (takeTurn s).brightness = s.brightness := by unfold takeTurn; split <;> rfl
@[simp] theorem takeTurn_fadeState (s : State) : (takeTurn s).fadeState = s.fadeState := by unfold takeTurn; split <;> rfl
@[simp] theorem takeTurn_step (s : State) : (takeTurn s).step = s.step := by unfold takeTurn; split <;> rfl
@[simp] theorem takeTurn_last (s : State) : (takeTurn s).last = s.last := by unfold takeTurn; split <;> rfl
@[simp] theorem takeTurn_delay (s : State) : (takeTurn s).delay = s.delay := by unfold takeTurn; split <;> rfl
@[simp] theorem takeTurn_blocking (s : State) : (takeTurn s).blocking = s.blocking := by unfold takeTurn; split <;> rfl
@[simp] theorem takeTurn_blockErr (s : State) : (takeTurn s).blockErr = s.blockErr := by unfold takeTurn; split <;> rfl
@[simp] theorem takeTurn_hung (s : State) : (takeTurn s).hung = s.hung := by unfold takeTurn; split <;> rfl
@[simp] theorem takeTurn_received (s : State) : (takeTurn s).received = s.received := by unfold takeTurn; split <;> rfl
@[simp] theorem takeTurn_outputs (s : State) : (takeTurn s).outputs = s.outputs := by unfold takeTurn; split <;> rfl
@[simp] theorem takeTurn_cfg (s : State) : (takeTurn s).cfg = s.cfg := by unfold takeTurn; split <;> rfl
@[simp] theorem takeTurn_busReplies (s : State) : (takeTurn s).busReplies = s.busReplies := by unfold takeTurn; split <;> rfl
@[simp] theorem takeTurn_busDraws (s : State) : (takeTurn s).busDraws = s.busDraws := by unfold takeTurn; split <;> rfl

/-! ### The next reply of the environment -/

@[simp] theorem setBuf_nextReply (s : State) (m : Memory) : (s.setBuf m).nextReply = s.nextReply := rfl
@[simp] theorem driveResult_nextReply (st : Status) (s : State) : (driveResult st s).nextReply = s.nextReply := rfl
@[simp] theorem takeWords_nextReply (n : Nat) (s : State) : (takeWords n s).nextReply = s.nextReply := rfl
@[simp] theorem deliver_nextReply (t : Word) (ws : List Word) (s : State) :
    (deliver t ws s).nextReply = s.nextReply := rfl
@[simp] theorem armFade_nextReply (d : Word) (s : State) : (armFade d s).nextReply = s.nextReply := rfl
@[simp] theorem busWrite_reply (p : Payload) (s : State) : (busWrite p s).1 = s.nextReply := rfl
@[simp] theorem applyBrightness_reply (lv : BitVec 4) (s : State) : (applyBrightness lv s).1 = s.nextReply := rfl
@[simp] theorem flushBuffer_reply (s : State) : (flushBuffer s).1 = s.nextReply := rfl

/-! ### The fading bit -/

@[simp] theorem setBuf_fading (s : State) (m : Memory) : fading (s.setBuf m) = fading s := rfl
@[simp] theorem driveResult_fading (st : Status) (s : State) : fading (driveResult st s) = fading s := rfl
@[simp] theorem afterBus_fading (p : Payload) (s : State) : fading (busWrite p s).2 = fading s := rfl
@[simp] theorem applyBrightness_fading (lv : BitVec 4) (s : State) : fading (applyBrightness lv s).2 = fading s := rfl
@[simp] theorem flushBuffer_fading (s : State) : fading (flushBuffer s).2 = fading s := rfl
@[simp] theorem takeWords_fading (n : Nat) (s : State) : fading (takeWords n s) = fading s := rfl
@[simp] theorem deliver_fading (t : Word) (ws : List Word) (s : State) : fading (deliver t ws s) = fading s := rfl
@[simp] theorem armFade_fading (d : Word) (s : State) : fading (armFade d s) = true := rfl

/-! ### The observation port -/

/-- No fade armed and waiting for its first internal step: the port shows the three elements. 10_state.md R33. -/
theorem observe_live {s : State} (hh : s.hung = none) (ha : s.justArmed = false) :
    s.observe = { buf := s.buf, brightness := s.brightness, fadeState := s.fadeState } := by
  simp [State.observe, hh, ha]

theorem observe_hung {s : State} {o : Observation} (hh : s.hung = some o) : s.observe = o := by
  simp [State.observe, hh]

theorem justArmed_eq_true {s : State} :
    s.justArmed = true ↔ s.blocking = true ∧ s.fadeState = .fadingOut ∧ s.step = 15 := by
  simp [State.justArmed, and_assoc]

theorem justArmed_eq_false {s : State} :
    s.justArmed = false ↔ ¬ (s.blocking = true ∧ s.fadeState = .fadingOut ∧ s.step = 15) := by
  rw [← justArmed_eq_true, Bool.not_eq_true]

/-- The port does not see the environment's turn. -/
@[simp] theorem takeTurn_observe (s : State) : (takeTurn s).observe = s.observe := by
  simp [State.observe, State.justArmed]

/-- Arming a blocking fade is not seen on the port. Assumption log 24. -/
theorem observe_armed (d : Word) {s : State} (h : s.fadeState = .idle) :
    State.observe { armFade d s with blocking := true, blockErr := false } = s.observe := by
  simp [State.observe, State.justArmed, h]

/-! ### The invariant looks at these fields only -/

theorem State.Inv_of_same {s t : State} (h : s.Inv) (hb : t.buf = s.buf) (h1 : t.blocking = s.blocking)
    (h2 : t.fadeState = s.fadeState) (h3 : t.blockErr = s.blockErr) (h4 : t.received = s.received) : t.Inv where
  bufWf := hb ▸ h.bufWf
  blockingFades := by rw [h1, h2]; exact h.blockingFades
  errWhileBlocking := by rw [h1, h3]; exact h.errWhileBlocking
  receivedPart := by rw [h4]; exact h.receivedPart

end Sys2Proof.Machine
end

