-- ==== Sys2Proof/Laws/Fade.lean ====
section
/-! SUPPORT. What the operations over the bus and the steps of the fade controller can do, stated once each. -/

namespace Sys2Proof.Machine

/-! ## The bus -/

theorem nextReply_listed {s : State} {r : BusReply} {rs : List BusReply} (h : s.busReplies = r :: rs) :
    s.nextReply = r := by
  simp [State.nextReply, h]

/-- With no reply listed the environment answers, one way or the other. 60_exceptions.md R147. -/
theorem nextReply_drawn {s : State} (h : s.busReplies = []) : s.nextReply ≠ .never := by
  simp only [State.nextReply, h]
  split <;> simp

/-- An environment that answers every listed transaction answers the next. -/
theorem nextReply_answered {s : State} (h : AllAnswered s) : s.nextReply ≠ .never := by
  cases hr : s.busReplies with
  | nil => exact nextReply_drawn hr
  | cons r rs =>
    rw [nextReply_listed hr]
    rintro rfl
    exact h (by simp [hr])

theorem busWrite_allAnswered {s : State} (h : AllAnswered s) (p : Payload) : AllAnswered (busWrite p s).2 := by
  intro hm
  exact h (List.mem_of_mem_tail hm)

/-- How a command over the bus ends. -/
theorem finish_cases (before : State) (o : BusReply × State) :
    (o.1 = .ok ∧ finish before o = driveResult .ok o.2) ∨
      (o.1 = .err ∧ finish before o = driveResult .transportError o.2) ∨
      (o.1 = .never ∧ finish before o = hang before o.2) := by
  unfold finish
  cases o.1 <;> simp

/-- What the end of a command over the bus keeps. -/
theorem finish_frame (before : State) (o : BusReply × State) :
    (finish before o).buf = o.2.buf ∧ (finish before o).brightness = o.2.brightness ∧
      (finish before o).fadeState = o.2.fadeState ∧ (finish before o).step = o.2.step ∧
      (finish before o).last = o.2.last ∧ (finish before o).delay = o.2.delay ∧
      (finish before o).blocking = o.2.blocking ∧ (finish before o).blockErr = o.2.blockErr ∧
      (finish before o).received = o.2.received ∧ (finish before o).offered = o.2.offered ∧
      (finish before o).now = o.2.now ∧ (finish before o).cfg = o.2.cfg ∧ (finish before o).turns = o.2.turns ∧
      (finish before o).timeDraws = o.2.timeDraws ∧ (finish before o).busReplies = o.2.busReplies ∧
      (finish before o).busDraws = o.2.busDraws := by
  rcases finish_cases before o with h | h | h <;> simp [h.2]

/-! ## configure -/

/-- configure stops at the first transaction not answered `ok`, or ends with its brightness. -/
theorem configureChip_cases (s : State) :
    (s.nextReply ≠ .ok ∧ configureChip s = busWrite .oscillatorEnable s) ∨
      (s.nextReply = .ok ∧ (busWrite .oscillatorEnable s).2.nextReply ≠ .ok ∧
        configureChip s = busWrite .displayEnable (busWrite .oscillatorEnable s).2) ∨
      (s.nextReply = .ok ∧ (busWrite .oscillatorEnable s).2.nextReply = .ok ∧
        configureChip s = applyBrightness 15 (busWrite .displayEnable (busWrite .oscillatorEnable s).2).2) := by
  unfold configureChip
  simp only [busWrite_reply]
  cases h1 : s.nextReply
  · cases h2 : (busWrite .oscillatorEnable s).2.nextReply <;> simp
  · simp
  · simp

/-- What no configure changes. 41_device_state.md R106. -/
theorem configureChip_frame (s : State) :
    (configureChip s).2.buf = s.buf ∧ (configureChip s).2.fadeState = s.fadeState ∧ (configureChip s).2.step = s.step ∧
      (configureChip s).2.last = s.last ∧ (configureChip s).2.delay = s.delay ∧
      (configureChip s).2.blocking = s.blocking ∧ (configureChip s).2.blockErr = s.blockErr ∧
      (configureChip s).2.received = s.received ∧ (configureChip s).2.offered = s.offered ∧
      (configureChip s).2.now = s.now ∧ (configureChip s).2.cfg = s.cfg ∧ (configureChip s).2.turns = s.turns ∧
      (configureChip s).2.timeDraws = s.timeDraws := by
  rcases configureChip_cases s with h | h | h <;> simp [h.2]

/-! ## The fade step -/

/-- The handoff ends in FadingIn at step 0, or waits for the answer to its flush. 42_fade_controller.md R124. -/
theorem handoff_cases (r : BusReply) (s : State) :
    (s.nextReply = .never ∧ handoff r s = flushBuffer s) ∨
      (s.nextReply ≠ .never ∧
        handoff r s = (r.both s.nextReply, { (flushBuffer s).2 with fadeState := .fadingIn, step := 0 })) := by
  unfold handoff
  simp only [flushBuffer_reply]
  cases h : s.nextReply <;> simp

/-- Everything a fade step can do. 42_fade_controller.md R120, R123. Here `a` is the state after the step's brightness
transaction. -/
theorem fadeStepF_cases (s : State) :
    let a := (applyBrightness s.step (markTransition s)).2
    (s.nextReply = .never ∧ fadeStepF s = (.never, a)) ∨
      (s.nextReply ≠ .never ∧ s.fadeState = .fadingOut ∧ s.step = 0 ∧ fadeStepF s = handoff s.nextReply a) ∨
      (s.nextReply ≠ .never ∧ s.fadeState = .fadingOut ∧ s.step ≠ 0 ∧
        fadeStepF s = (s.nextReply, { a with step := s.step - 1 })) ∨
      (s.nextReply ≠ .never ∧ s.fadeState ≠ .fadingOut ∧ s.step = 15 ∧
        fadeStepF s = (s.nextReply, { a with fadeState := .idle })) ∨
      (s.nextReply ≠ .never ∧ s.fadeState ≠ .fadingOut ∧ s.step ≠ 15 ∧
        fadeStepF s = (s.nextReply, { a with step := s.step + 1 })) := by
  intro a
  have hr : (applyBrightness s.step (markTransition s)).1 = s.nextReply := rfl
  have move : ∀ r : BusReply,
      (s.fadeState = .fadingOut ∧ s.step = 0 ∧ advance r a = handoff r a) ∨
        (s.fadeState = .fadingOut ∧ s.step ≠ 0 ∧ advance r a = (r, { a with step := s.step - 1 })) ∨
        (s.fadeState ≠ .fadingOut ∧ s.step = 15 ∧ advance r a = (r, { a with fadeState := .idle })) ∨
        (s.fadeState ≠ .fadingOut ∧ s.step ≠ 15 ∧ advance r a = (r, { a with step := s.step + 1 })) := by
    intro r
    have e1 : a.fadeState = s.fadeState := rfl
    have e2 : a.step = s.step := rfl
    unfold advance
    rw [e1, e2]
    by_cases hf : s.fadeState = .fadingOut
    · rw [if_pos hf]
      by_cases hs : s.step = 0
      · rw [if_pos hs]; exact .inl ⟨hf, hs, rfl⟩
      · rw [if_neg hs]; exact .inr (.inl ⟨hf, hs, rfl⟩)
    · rw [if_neg hf]
      by_cases hs : s.step = 15
      · rw [if_pos hs]; exact .inr (.inr (.inl ⟨hf, hs, rfl⟩))
      · rw [if_neg hs]; exact .inr (.inr (.inr ⟨hf, hs, rfl⟩))
  have answered : ∀ r : BusReply, s.nextReply = r → r ≠ .never → fadeStepF s = advance r a := by
    intro r h hn
    simp only [fadeStepF, hr, h]
    cases r with
    | ok | err => rfl
    | never => exact absurd rfl hn
  by_cases hn : s.nextReply = .never
  · refine .inl ⟨hn, ?_⟩
    simp only [fadeStepF, hr, hn]
    exact Prod.ext (hr.trans hn) rfl
  · rw [answered _ rfl hn]
    rcases move s.nextReply with h | h | h | h
    · exact .inr (.inl ⟨hn, h⟩)
    · exact .inr (.inr (.inl ⟨hn, h⟩))
    · exact .inr (.inr (.inr (.inl ⟨hn, h⟩)))
    · exact .inr (.inr (.inr (.inr ⟨hn, h⟩)))

/-- What no fade step changes. 42_fade_controller.md R123. -/
theorem fadeStepF_frame (s : State) :
    (fadeStepF s).2.buf = s.buf ∧ (fadeStepF s).2.delay = s.delay ∧ (fadeStepF s).2.blocking = s.blocking ∧
      (fadeStepF s).2.blockErr = s.blockErr ∧ (fadeStepF s).2.hung = s.hung ∧
      (fadeStepF s).2.received = s.received ∧ (fadeStepF s).2.offered = s.offered ∧
      (fadeStepF s).2.now = s.now ∧ (fadeStepF s).2.cfg = s.cfg ∧ (fadeStepF s).2.turns = s.turns ∧
      (fadeStepF s).2.timeDraws = s.timeDraws := by
  rcases fadeStepF_cases s with h | h | h | h | h
  · rw [h.2]; simp
  · rw [h.2.2.2]
    rcases handoff_cases s.nextReply (applyBrightness s.step (markTransition s)).2 with h' | h' <;>
      (rw [h'.2]; simp)
  · rw [h.2.2.2]; simp
  · rw [h.2.2.2]; simp
  · rw [h.2.2.2]; simp

/-- A fade step marks the time and applies the brightness held in `step`. 42_fade_controller.md R123. -/
theorem fadeStepF_applies (s : State) :
    (fadeStepF s).2.last = s.now ∧ (fadeStepF s).2.brightness = s.step := by
  rcases fadeStepF_cases s with h | h | h | h | h
  · rw [h.2]; simp
  · rw [h.2.2.2]
    rcases handoff_cases s.nextReply (applyBrightness s.step (markTransition s)).2 with h' | h' <;>
      (rw [h'.2]; simp)
  · rw [h.2.2.2]; simp
  · rw [h.2.2.2]; simp
  · rw [h.2.2.2]; simp

/-- An internal step: nothing before the time, else a fade step with its three endings. 42_fade_controller.md R127. -/
theorem internalStep_cases (s : State) :
    (elapsed s = false ∧ internalStep s = s) ∨
      (elapsed s = true ∧ (fadeStepF s).1 = .never ∧ internalStep s = hang s (fadeStepF s).2) ∨
      (elapsed s = true ∧ (fadeStepF s).1 ≠ .never ∧
        internalStep s = endInternalStep (s.blockErr || (fadeStepF s).1 == .err) (fadeStepF s).2) := by
  unfold internalStep
  cases he : elapsed s
  · simp
  · cases hr : (fadeStepF s).1
    · exact .inr (.inr ⟨rfl, by simp, by simp [hr, show (BusReply.ok == BusReply.err) = false from rfl]⟩)
    · exact .inr (.inr ⟨rfl, by simp, by simp [hr]⟩)
    · exact .inr (.inl ⟨rfl, rfl, by simp [hr]⟩)

/-- After a fade step that came to an answer no fade is just armed. 42_fade_controller.md R123. -/
theorem fadeStepF_justArmed {s : State} (h : (fadeStepF s).1 ≠ .never) : (fadeStepF s).2.justArmed = false := by
  rw [justArmed_eq_false]
  rintro ⟨-, hf, hs⟩
  rcases fadeStepF_cases s with k | k | k | k | k
  · exact h (by rw [k.2])
  · rw [k.2.2.2] at h hf
    rcases handoff_cases s.nextReply (applyBrightness s.step (markTransition s)).2 with h' | h'
    · exact h (by rw [h'.2, flushBuffer_reply, h'.1])
    · rw [h'.2] at hf
      cases hf
  · rw [k.2.2.2] at hs
    exact k.2.2.1 (by simpa [sub_eq_iff_eq_add] using hs)
  · rw [k.2.2.2] at hf
    cases hf
  · rw [k.2.2.2] at hf
    exact k.2.1 (by simpa using hf)

/-- What the observation port shows after an internal step: before the time, and when the step hangs, what it showed;
else the three elements. 10_state.md R33; assumption logs 19 and 24. -/
theorem internalStep_observe (s : State) :
    (elapsed s = true ∧ (fadeStepF s).1 ≠ .never ∧ (s.hung = none →
        (internalStep s).observe =
          { buf := (internalStep s).buf, brightness := (internalStep s).brightness,
            fadeState := (internalStep s).fadeState })) ∨
      (¬ (elapsed s = true ∧ (fadeStepF s).1 ≠ .never) ∧ (internalStep s).observe = s.observe) := by
  rcases internalStep_cases s with h | h | h
  · exact .inr ⟨by simp [h.1], by rw [h.2]⟩
  · exact .inr ⟨by simp [h.2.1], by rw [h.2.2]; exact observe_hung rfl⟩
  · refine .inl ⟨h.1, h.2.1, fun hh => ?_⟩
    have ha := fadeStepF_justArmed h.2.1
    have hf := (fadeStepF_frame s).2.2.2.2.1
    rw [h.2.2]
    unfold endInternalStep
    split
    · exact observe_live (by simp [hf, hh]) (by simp [State.justArmed])
    · exact observe_live (by simp [hf, hh]) ha

end Sys2Proof.Machine
end

