-- ==== Sys2Proof/Laws/Bus.lean ====
section
/-! SUPPORT. What the bus part of a command leaves on the record, said once for every operation over the bus: a run of
transactions with the four payloads, and a reply that tells what became of them. -/

namespace Sys2Proof.Machine

/-- The transactions `evs` are what an operation over the bus drove from `s` on, coming to the reply and state `o`. -/
structure BusPart (s : State) (o : BusReply × State) (evs : List Output) : Prop where
  outputs : o.2.outputs = s.outputs ++ evs
  legal : ∀ e ∈ evs, ∃ p r, e = .bus s.cfg.i2cAddr (Payload.bytes s.cfg p) r ∧
    ∀ rows, p = .ramWrite rows → rows = memRead s.buf 0 16
  never : o.1 = .never ↔ BusReply.never ∈ busRepliesOf evs
  err : o.1 ≠ .never → (o.1 = .err ↔ BusReply.err ∈ busRepliesOf evs)
  first : ∃ bytes, evs.head? = some (.bus s.cfg.i2cAddr bytes s.nextReply)
  lastNever : o.1 = .never → ∃ bytes, evs.getLast? = some (.bus s.cfg.i2cAddr bytes .never)

/-- One transaction. -/
theorem BusPart.one {p : Payload} {s t : State} (hp : ∀ rows, p = .ramWrite rows → rows = memRead s.buf 0 16)
    (ht : t.outputs = s.outputs ++ [.bus s.cfg.i2cAddr (p.bytes s.cfg) s.nextReply]) :
    BusPart s (s.nextReply, t) [.bus s.cfg.i2cAddr (p.bytes s.cfg) s.nextReply] where
  outputs := ht
  legal := by
    intro e he
    obtain rfl := List.mem_singleton.mp he
    exact ⟨p, _, rfl, hp⟩
  never := by simp [busRepliesOf, eq_comm]
  err := by simp [busRepliesOf, eq_comm]
  first := ⟨_, rfl⟩
  lastNever := fun h => ⟨p.bytes s.cfg, by rw [show s.nextReply = .never from h]; rfl⟩

/-- An answered transaction and then the transactions from `t` on, the two replies put together as `r`. -/
theorem BusPart.cons (p : Payload) (s t : State) {o : BusReply × State} {r : BusReply} {evs : List Output}
    (hp : ∀ rows, p = .ramWrite rows → rows = memRead s.buf 0 16)
    (ht : t.outputs = s.outputs ++ [.bus s.cfg.i2cAddr (p.bytes s.cfg) s.nextReply]) (hc : t.cfg = s.cfg)
    (hb : t.buf = s.buf) (h : BusPart t o evs) (hn : s.nextReply ≠ .never) (hr : r = .never ↔ o.1 = .never)
    (he : r ≠ .never → (r = .err ↔ s.nextReply = .err ∨ o.1 = .err)) :
    BusPart s (r, o.2) (.bus s.cfg.i2cAddr (p.bytes s.cfg) s.nextReply :: evs) where
  outputs := by rw [h.outputs, ht]; simp
  legal := by
    intro e hm
    rcases List.mem_cons.mp hm with rfl | hm
    · exact ⟨p, _, rfl, hp⟩
    · have := h.legal e hm
      rwa [hc, hb] at this
  never := by
    rw [hr, h.never]
    simp [busRepliesOf, Ne.symm hn]
  err := by
    intro hne
    have h1 : o.1 ≠ .never := fun hq => hne (hr.mpr hq)
    rw [he hne, h.err h1]
    simp [busRepliesOf, eq_comm]
  first := ⟨_, rfl⟩
  lastNever := by
    intro hne
    obtain ⟨b, hb⟩ := h.lastNever (hr.mp hne)
    refine ⟨b, ?_⟩
    rw [← hc, ← hb]
    cases evs with
    | nil => simp at hb
    | cons e es => simp

theorem busWrite_part {p : Payload} (s : State) (hp : ∀ rows, p = .ramWrite rows → rows = memRead s.buf 0 16) :
    BusPart s (busWrite p s) [.bus s.cfg.i2cAddr (p.bytes s.cfg) s.nextReply] :=
  BusPart.one hp rfl

theorem flushBuffer_part (s : State) :
    BusPart s (flushBuffer s)
      [.bus s.cfg.i2cAddr (Payload.bytes s.cfg (.ramWrite (memRead s.buf 0 16))) s.nextReply] := by
  exact BusPart.one (p := .ramWrite (memRead s.buf 0 16)) (by simp) rfl

theorem applyBrightness_part (lv : BitVec 4) (s : State) :
    BusPart s (applyBrightness lv s)
      [.bus s.cfg.i2cAddr (Payload.bytes s.cfg (.brightness lv)) s.nextReply] :=
  BusPart.one (p := .brightness lv) (by simp) rfl

theorem configureChip_part (s : State) : ∃ evs, BusPart s (configureChip s) evs := by
  rcases configureChip_cases s with h | h | h
  · rw [h.2]
    exact ⟨_, busWrite_part s (by simp)⟩
  · rw [h.2.2]
    exact ⟨_, BusPart.cons .oscillatorEnable s (busWrite .oscillatorEnable s).2 (by simp) rfl rfl rfl
      (busWrite_part (p := .displayEnable) _ (by simp)) (by simp [h.1]) Iff.rfl fun _ => by simp [h.1]⟩
  · rw [h.2.2]
    have third := applyBrightness_part 15 (busWrite .displayEnable (busWrite .oscillatorEnable s).2).2
    have second := BusPart.cons .displayEnable (busWrite .oscillatorEnable s).2
      (busWrite .displayEnable (busWrite .oscillatorEnable s).2).2 (by simp) rfl rfl rfl third (by simp [h.2.1]) Iff.rfl fun _ => by simp [h.2.1]
    exact ⟨_, BusPart.cons .oscillatorEnable s (busWrite .oscillatorEnable s).2 (by simp) rfl rfl rfl second
      (by simp [h.1]) Iff.rfl fun _ => by simp [h.1]⟩

theorem fadeStepF_part (s : State) : ∃ evs, BusPart s (fadeStepF s) evs := by
  have one : ∀ t : State, t.outputs = (applyBrightness s.step (markTransition s)).2.outputs →
      ∃ evs, BusPart s (s.nextReply, t) evs :=
    fun t ht => ⟨_, BusPart.one (p := .brightness s.step) (by simp) ht⟩
  rcases fadeStepF_cases s with h | h | h | h | h
  · rw [h.2, ← h.1]
    exact one _ rfl
  · rw [h.2.2.2]
    have second := flushBuffer_part (applyBrightness s.step (markTransition s)).2
    rcases handoff_cases s.nextReply (applyBrightness s.step (markTransition s)).2 with h' | h'
    · rw [h'.2]
      exact ⟨_, BusPart.cons (.brightness s.step) s (applyBrightness s.step (markTransition s)).2 (by simp)
        rfl rfl rfl second h.1 Iff.rfl
        fun hq => absurd h'.1 hq⟩
    · rw [h'.2]
      have third := BusPart.one (s := (applyBrightness s.step (markTransition s)).2)
        (t := { (flushBuffer (applyBrightness s.step (markTransition s)).2).2 with fadeState := .fadingIn, step := 0 })
        (p := .ramWrite (memRead s.buf 0 16)) (by simp) rfl
      refine ⟨_, BusPart.cons (.brightness s.step) s (applyBrightness s.step (markTransition s)).2 (by simp)
        rfl rfl rfl third h.1 ?_ ?_⟩
      · have h1 := h.1
        have h2 := h'.1
        revert h1 h2
        cases s.nextReply <;> cases (applyBrightness s.step (markTransition s)).2.nextReply <;> simp [BusReply.both]
      · have h1 := h.1
        have h2 := h'.1
        revert h1 h2
        cases s.nextReply <;> cases (applyBrightness s.step (markTransition s)).2.nextReply <;> simp [BusReply.both]
  · rw [h.2.2.2]; exact one _ rfl
  · rw [h.2.2.2]; exact one _ rfl
  · rw [h.2.2.2]; exact one _ rfl

/-- Transactions are no results. -/
theorem BusPart.noResult {s : State} {o : BusReply × State} {evs : List Output} (h : BusPart s o evs) :
    evs.filter Output.isResult = [] := by
  rw [List.filter_eq_nil_iff]
  intro e he
  obtain ⟨p, r, rfl, _⟩ := h.legal e he
  simp [Output.isResult]

theorem busBytes_append (a b : List Output) : busBytes (a ++ b) = busBytes a ++ busBytes b := by simp [busBytes]

theorem busRepliesOf_append (a b : List Output) : busRepliesOf (a ++ b) = busRepliesOf a ++ busRepliesOf b := by
  simp [busRepliesOf]

theorem memRead_eq_rowsOf (m : Memory) : memRead m 0 16 = rowsOf m := by simp [memRead, rowsOf]

/-- The transactions of a fade step: its brightness, and at the dark point, unless that one is never answered, the
buffer. 42_fade_controller.md R123, R124. -/
theorem fadeStepF_payloads (s : State) : ∃ evs, BusPart s (fadeStepF s) evs ∧
    busBytes evs = Payload.bytes s.cfg (.brightness s.step) ::
      if s.fadeState = .fadingOut ∧ s.step = 0 ∧ s.nextReply ≠ .never then [ramBase :: rowsOf s.buf] else [] := by
  obtain ⟨evs, hb⟩ := fadeStepF_part s
  refine ⟨evs, hb, ?_⟩
  have ho := hb.outputs
  have one : (fadeStepF s).2.outputs = s.outputs ++
      [.bus s.cfg.i2cAddr (Payload.bytes s.cfg (.brightness s.step)) s.nextReply] →
      busBytes evs = [Payload.bytes s.cfg (.brightness s.step)] := by
    intro h
    rw [ho] at h
    rw [List.append_cancel_left h]
    rfl
  rcases fadeStepF_cases s with h | h | h | h | h
  · rw [if_neg (by simp [h.1])]
    exact one (by rw [h.2]; simp)
  · rw [if_pos ⟨h.2.1, h.2.2.1, h.1⟩]
    rw [h.2.2.2] at ho
    have two : evs = [.bus s.cfg.i2cAddr (Payload.bytes s.cfg (.brightness s.step)) s.nextReply,
        .bus s.cfg.i2cAddr (ramBase :: rowsOf s.buf) (applyBrightness s.step (markTransition s)).2.nextReply] := by
      rcases handoff_cases s.nextReply (applyBrightness s.step (markTransition s)).2 with h' | h' <;>
        (rw [h'.2] at ho; simp only [flushBuffer_outputs, applyBrightness_outputs, applyBrightness_buf,
          markTransition_buf, memRead_eq_rowsOf, List.append_assoc] at ho
         exact (List.append_cancel_left ho).symm)
    rw [two]
    rfl
  · rw [if_neg fun hc => h.2.2.1 hc.2.1]
    exact one (by rw [h.2.2.2]; simp)
  · rw [if_neg fun hc => h.2.1 hc.1]
    exact one (by rw [h.2.2.2]; simp)
  · rw [if_neg fun hc => h.2.1 hc.1]
    exact one (by rw [h.2.2.2]; simp)

theorem newOutputs_of_append {s t : State} {evs : List Output} (h : t.outputs = s.outputs ++ evs) :
    newOutputs s t = evs := by
  simp [newOutputs, h]

/-- What a command over the bus leaves on the record: its transactions and, unless it hangs, its result. -/
theorem finish_outputs {s : State} {o : BusReply × State} {evs : List Output} (h : BusPart s o evs) :
    (o.1 ≠ .never ∧ (finish s o).hung = o.2.hung ∧ newOutputs s (finish s o) =
        evs ++ [.result (if o.1 = .ok then .ok else .transportError) ((finish s o).fadeState != .idle)]) ∨
      (o.1 = .never ∧ (finish s o).hung = some s.observe ∧ newOutputs s (finish s o) = evs) := by
  rcases finish_cases s o with h' | h' | h'
  · rw [h'.2]
    exact .inl ⟨by simp [h'.1], rfl, newOutputs_of_append (by simp [h.outputs, h'.1, fading])⟩
  · rw [h'.2]
    exact .inl ⟨by simp [h'.1], rfl, newOutputs_of_append (by simp [h.outputs, h'.1, fading])⟩
  · rw [h'.2]
    exact .inr ⟨h'.1, rfl, newOutputs_of_append (by simp [h.outputs])⟩

/-! ## The chip's RAM -/

theorem chipRam_append (a b : List Output) : chipRam (a ++ b) = b.foldl chipRamAfter (chipRam a) := by simp [chipRam]

/-- Events without a RAM write: what is known of the RAM stays known while every answer is `ok`, and is lost with any
other. 20_memory.md R57, 93_implementation_defined.md I7. -/
theorem chipRamAfter_noRamWrite (known : Option (List Byte)) (os : List Output)
    (h : ∀ bytes ∈ busBytes os, bytes.length ≠ 17) :
    ((∀ r ∈ busRepliesOf os, r = .ok) → os.foldl chipRamAfter known = known) ∧
      ((∃ r ∈ busRepliesOf os, r ≠ .ok) → os.foldl chipRamAfter known = none) := by
  induction os generalizing known with
  | nil => simp [busRepliesOf]
  | cons o os ih =>
    cases o with
    | result => exact ih known (by simpa [busBytes] using h)
    | bus addr bytes reply =>
      simp only [busBytes, List.filterMap_cons, List.mem_cons, forall_eq_or_imp] at h
      simp only [busRepliesOf, List.filterMap_cons, List.mem_cons, forall_eq_or_imp, exists_eq_or_imp, List.foldl_cons,
        chipRamAfter, h.1, if_false] at ih ⊢
      by_cases hr : reply = .ok
      · simpa [hr] using ih known h.2
      · refine ⟨fun hc => absurd hc.1 hr, fun _ => ?_⟩
        rw [if_neg hr]
        by_cases hall : ∃ r ∈ busRepliesOf os, r ≠ .ok
        · exact (ih none h.2).2 hall
        · exact (ih none h.2).1 (by simpa [busRepliesOf] using hall)

end Sys2Proof.Machine
end

