-- ==== Sys2Proof/Laws/Memory.lean ====
section
/-! SUPPORT. The laws of the buffer's representation: reading after writing, and that every operation keeps the
canonical form, in which equal contents are equal lists. -/

namespace Sys2Proof.Machine

theorem Memory.byteAt_setByte (m : Memory) (a b : Nat) (v : Byte) (hm : m.Pairwise (fun c d => c.1 < d.1)) :
    (Memory.setByte a v m).byteAt b = if b = a then v else m.byteAt b := by
  induction m with
  | nil =>
    simp only [Memory.setByte]
    split <;> simp [Memory.byteAt, *, eq_comm]
  | cons c m ih =>
    obtain ⟨k, w⟩ := c
    have hk : ∀ d ∈ m, k < d.1 := (List.pairwise_cons.mp hm).1
    have absent : ∀ j, j ≤ k → Memory.byteAt m j = unlistedRow := by
      intro j hj
      have : ∀ l : Memory, (∀ d ∈ l, k < d.1) → Memory.byteAt l j = unlistedRow := by
        intro l
        induction l with
        | nil => intro _; rfl
        | cons d l ihl =>
          intro h
          have h1 := h d (by simp)
          simp only [Memory.byteAt]
          rw [if_neg (by omega)]
          exact ihl fun e he => h e (by simp [he])
      exact this m hk
    have ih' := ih (List.pairwise_cons.mp hm).2
    rcases Nat.lt_trichotomy a k with h | h | h
    · by_cases hv : v = unlistedRow <;> by_cases hb : b = a
      · simp [Memory.setByte, Memory.byteAt, h, hv, hb, absent a (by omega), Nat.ne_of_gt h]
      · simp [Memory.setByte, h, hv, hb]
      · simp [Memory.setByte, Memory.byteAt, h, hv, hb]
      · simp [Memory.setByte, Memory.byteAt, h, hv, hb, Ne.symm hb]
    · subst h
      by_cases hv : v = unlistedRow <;> by_cases hb : b = a
      · simp [Memory.setByte, hv, hb, absent a (by omega)]
      · simp [Memory.setByte, Memory.byteAt, hv, hb, Ne.symm hb]
      · simp [Memory.setByte, Memory.byteAt, hv, hb]
      · simp [Memory.setByte, Memory.byteAt, hv, hb, Ne.symm hb]
    · have h1 : ¬ a < k := by omega
      have h2 : a ≠ k := by omega
      by_cases hb : k = b
      · subst hb
        simp [Memory.setByte, Memory.byteAt, h1, h2, Ne.symm h2]
      · simp [Memory.setByte, Memory.byteAt, h1, h2, hb, ih']

theorem Memory.mem_setByte {m : Memory} {a : Nat} {v : Byte} {c : Host.Cell} (h : c ∈ Memory.setByte a v m) :
    c ∈ m ∨ (c = (a, v) ∧ v ≠ unlistedRow) := by
  induction m with
  | nil =>
    simp only [Memory.setByte] at h
    split at h <;> simp_all
  | cons d m ih =>
    obtain ⟨k, w⟩ := d
    simp only [Memory.setByte] at h
    split_ifs at h with h1 h2 h3 h4
    · exact .inl h
    · rcases List.mem_cons.mp h with h | h
      · exact .inr ⟨h, h2⟩
      · exact .inl h
    · exact .inl (List.mem_cons_of_mem _ h)
    · rcases List.mem_cons.mp h with h | h
      · exact .inr ⟨h, h4⟩
      · exact .inl (List.mem_cons_of_mem _ h)
    · rcases List.mem_cons.mp h with h | h
      · exact .inl (by simp [h])
      · rcases ih h with h | h
        · exact .inl (List.mem_cons_of_mem _ h)
        · exact .inr h

theorem Memory.pairwise_setByte {m : Memory} (a : Nat) (v : Byte) (hm : m.Pairwise (fun c d => c.1 < d.1)) :
    (Memory.setByte a v m).Pairwise (fun c d => c.1 < d.1) := by
  induction m with
  | nil =>
    simp only [Memory.setByte]
    split <;> simp
  | cons c m ih =>
    obtain ⟨k, w⟩ := c
    have hk := List.pairwise_cons.mp hm
    simp only [Memory.setByte]
    split_ifs with h1 h2 h3 h4
    · exact hm
    · refine List.pairwise_cons.mpr ⟨?_, hm⟩
      intro d hd
      rcases List.mem_cons.mp hd with rfl | hd
      · exact h1
      · exact Nat.lt_trans h1 (hk.1 d hd)
    · exact hk.2
    · subst h3; exact List.pairwise_cons.mpr ⟨hk.1, hk.2⟩
    · refine List.pairwise_cons.mpr ⟨?_, ih hk.2⟩
      intro d hd
      rcases Memory.mem_setByte hd with hd | ⟨rfl, _⟩
      · exact hk.1 d hd
      · change k < a
        omega

/-- Reading after writing: the row written has the value, every other row is as before. -/
theorem Memory.read_write {m : Memory} (hm : m.wf) (r q : BitVec 4) (v : Byte) :
    (m.write r v).read q = if q = r then v else m.read q := by
  simp only [Memory.read, Memory.write, Memory.byteAt_setByte m _ _ _ hm.1, BitVec.toNat_inj]

/-- A write keeps the canonical form. -/
theorem Memory.write_wf {m : Memory} (hm : m.wf) (r : BitVec 4) (v : Byte) : (m.write r v).wf := by
  refine ⟨Memory.pairwise_setByte _ _ hm.1, ?_⟩
  intro c hc
  rcases Memory.mem_setByte hc with h | ⟨rfl, hv⟩
  · exact hm.2 c h
  · exact ⟨r.isLt, hv⟩

theorem Memory.nil_wf : Memory.wf [] := ⟨List.Pairwise.nil, by simp⟩

@[simp] theorem Memory.read_nil (r : BitVec 4) : Memory.read [] r = unlistedRow := rfl

/-- A fold of writes keeps the canonical form. -/
theorem Memory.foldl_wf {α : Type} (l : List α) (f : Memory → α → Memory) (hf : ∀ m x, m.wf → (f m x).wf)
    {m : Memory} (hm : m.wf) : (l.foldl f m).wf := by
  induction l generalizing m with
  | nil => exact hm
  | cons x l ih => exact ih (hf m x hm)

theorem Memory.byteAt_of_mem {m : Memory} (hm : m.Pairwise (fun c d => c.1 < d.1)) {c : Host.Cell} (hc : c ∈ m) :
    m.byteAt c.1 = c.2 := by
  induction m with
  | nil => cases hc
  | cons d m ih =>
    have hd := List.pairwise_cons.mp hm
    simp only [Memory.byteAt]
    rcases List.mem_cons.mp hc with rfl | hc
    · simp
    · rw [if_neg (Nat.ne_of_lt (hd.1 c hc)), ih hd.2 hc]

theorem Memory.byteAt_absent {m : Memory} {a : Nat} (h : ∀ c ∈ m, c.1 ≠ a) : m.byteAt a = unlistedRow := by
  induction m with
  | nil => rfl
  | cons d m ih =>
    simp only [Memory.byteAt]
    rw [if_neg (h d (by simp)), ih fun c hc => h c (by simp [hc])]

theorem Memory.mem_of_byteAt {m : Memory} {a : Nat} (h : m.byteAt a ≠ unlistedRow) : (a, m.byteAt a) ∈ m := by
  induction m with
  | nil => exact absurd rfl h
  | cons d m ih =>
    obtain ⟨k, v⟩ := d
    simp only [Memory.byteAt] at h ⊢
    by_cases hk : k = a
    · simp [hk]
    · simp only [if_neg hk] at h ⊢
      exact List.mem_cons_of_mem _ (ih h)

/-- Buffers in canonical form with the same rows are the same list. -/
theorem Memory.ext_of_read {m n : Memory} (hm : m.wf) (hn : n.wf) (h : ∀ r, m.read r = n.read r) : m = n := by
  have key : ∀ {x y : Memory}, x.wf → y.wf → (∀ r, x.read r = y.read r) → ∀ c ∈ x, c ∈ y := by
    intro x y hx hy hxy c hc
    have hlt := (hx.2 c hc).1
    have hr := hxy (BitVec.ofNat 4 c.1)
    have ht : (BitVec.ofNat 4 c.1).toNat = c.1 := by simp [Nat.mod_eq_of_lt hlt]
    simp only [Memory.read, ht, Memory.byteAt_of_mem hx.1 hc] at hr
    have hne : y.byteAt c.1 ≠ unlistedRow := hr ▸ (hx.2 c hc).2
    have := Memory.mem_of_byteAt hne
    rw [← hr] at this
    exact this
  have hsub := key hm hn h
  have hsup := key hn hm fun r => (h r).symm
  have perm : m.Perm n := by
    refine (List.perm_ext_iff_of_nodup ?_ ?_).mpr fun c => ⟨hsub c, hsup c⟩
    · exact hm.1.imp fun hlt => fun heq => Nat.ne_of_lt hlt (congrArg Prod.fst heq)
    · exact hn.1.imp fun hlt => fun heq => Nat.ne_of_lt hlt (congrArg Prod.fst heq)
  refine perm.eq_of_pairwise ?_ hm.1 hn.1
  intro a b _ _ hab hba
  exact absurd hab (Nat.lt_asymm hba)

/-- `MemRead(0, 16)` is the rows in increasing order. -/
theorem memRead_eq_map_allRows (m : Memory) : memRead m 0 16 = allRows.map m.read := by
  simp [memRead, allRows]

theorem memRead_length (m : Memory) (r : BitVec 4) (n : Nat) : (memRead m r n).length = n := by
  simp [memRead]

end Sys2Proof.Machine
end

