-- ==== Sys2Proof/Laws/Codec.lean ====
section
/-! SUPPORT. What the loops of the buffer codec do to each row, stated once: every row is `row d s` for one display `d`
and one sub-row `s`, and each loop changes the rows of one display by a function of the sub-row. -/

namespace Sys2Proof.Machine

/-! ## The address decoder -/

theorem row_toNat (d : BitVec 1) (s : BitVec 3) : (row d s).toNat = d.toNat * 8 + s.toNat := by
  revert d s; decide

theorem row_inj {d e : BitVec 1} {s q : BitVec 3} : row d s = row e q ↔ d = e ∧ s = q := by
  revert d e s q; decide

@[simp] theorem row_lampOf (r : BitVec 4) (k : BitVec 3) : row (lampOf r k).1 (lampOf r k).2.2 = r := by
  revert r k; decide

/-- Every row is the row of some display and sub-row. -/
theorem exists_row (r : BitVec 4) : ∃ d s, r = row d s := ⟨_, _, (row_lampOf r 0).symm⟩

theorem mem_eight (s : BitVec 3) : s ∈ eight := by revert s; decide

theorem mem_segments (s : BitVec 3) : s ∈ segments ↔ s ≠ dotRow := by revert s; decide

theorem mem_allRows (r : BitVec 4) : r ∈ allRows := by revert r; decide

theorem coord_invalid {d p : Byte} (h : ¬ (d < 2 ∧ p < 8)) : coord d p = none := if_neg h

theorem coord_valid {d p : Byte} (hd : d < 2) (hp : p < 8) : coord d p = some (d.setWidth 1, p.setWidth 3) :=
  if_pos ⟨hd, hp⟩

@[simp] theorem coord_setWidth (d : BitVec 1) (p : BitVec 3) : coord (d.setWidth 8) (p.setWidth 8) = some (d, p) := by
  revert d p; decide

/-! ## Loops over the rows of one display -/

/-- A loop over distinct sub-rows whose body changes only its own row, by `f`, changes exactly those rows by `f`. -/
theorem foldl_rows_read {d : BitVec 1} {body : Memory → BitVec 3 → Memory} {f : BitVec 3 → Byte → Byte}
    (hwf : ∀ m s, m.wf → (body m s).wf)
    (hread : ∀ m s r, m.wf → (body m s).read r = if r = row d s then f s (m.read r) else m.read r)
    {l : List (BitVec 3)} (hl : l.Nodup) {m : Memory} (hm : m.wf) (e : BitVec 1) (q : BitVec 3) :
    (l.foldl body m).read (row e q) =
      if e = d ∧ q ∈ l then f q (m.read (row e q)) else m.read (row e q) := by
  induction l generalizing m with
  | nil => simp
  | cons s l ih =>
    have hs := List.nodup_cons.mp hl
    rw [List.foldl_cons, ih hs.2 (hwf m s hm), hread m s _ hm]
    simp only [row_inj, List.mem_cons]
    by_cases he : e = d <;> by_cases hq : q = s
    · subst hq; simp [he, hs.1]
    · simp [he, hq]
    · simp [he]
    · simp [he]

theorem clearColumn_wf {m : Memory} (hm : m.wf) (d : BitVec 1) (p : BitVec 3) : (clearColumn m d p).wf :=
  Memory.foldl_wf _ _ (fun _ _ h => Memory.write_wf h _ _) hm

theorem clearColumn_read {m : Memory} (hm : m.wf) (d : BitVec 1) (p : BitVec 3) (e : BitVec 1) (q : BitVec 3) :
    (clearColumn m d p).read (row e q) =
      if e = d then m.read (row e q) &&& ~~~(mask p) else m.read (row e q) := by
  unfold clearColumn
  rw [foldl_rows_read (d := d) (f := fun _ v => v &&& ~~~(mask p))
    (fun _ _ h => Memory.write_wf h _ _) _ (by decide) hm]
  · simp [mem_eight]
  · intro n s r hn
    rw [Memory.read_write hn]
    split <;> simp_all

theorem setSegments_wf {m : Memory} (hm : m.wf) (d : BitVec 1) (p : BitVec 3) (pat : Byte) :
    (setSegments m d p pat).wf := by
  refine Memory.foldl_wf _ _ (fun n s h => ?_) hm
  split
  · exact Memory.write_wf h _ _
  · exact h

theorem setSegments_read {m : Memory} (hm : m.wf) (d : BitVec 1) (p : BitVec 3) (pat : Byte) (e : BitVec 1)
    (q : BitVec 3) :
    (setSegments m d p pat).read (row e q) =
      if e = d ∧ q ≠ dotRow ∧ pat.getLsbD q.toNat then m.read (row e q) ||| mask p else m.read (row e q) := by
  unfold setSegments
  rw [foldl_rows_read (d := d) (f := fun s v => if pat.getLsbD s.toNat then v ||| mask p else v) _ _ (by decide) hm]
  · simp only [mem_segments]
    by_cases he : e = d <;> by_cases hq : q = dotRow <;> simp [he, hq]
  · intro n s h
    split
    · exact Memory.write_wf h _ _
    · exact h
  · intro n s r hn
    by_cases hb : pat.getLsbD s.toNat
    · simp only [hb, if_true, Memory.read_write hn]
      split <;> simp_all
    · simp [hb]

theorem setDot_wf {m : Memory} (hm : m.wf) (d : BitVec 1) (p : BitVec 3) (dot : Bool) : (setDot m d p dot).wf := by
  unfold setDot
  split
  · exact Memory.write_wf hm _ _
  · exact hm

theorem setDot_read {m : Memory} (hm : m.wf) (d : BitVec 1) (p : BitVec 3) (dot : Bool) (e : BitVec 1) (q : BitVec 3) :
    (setDot m d p dot).read (row e q) =
      if e = d ∧ q = dotRow ∧ dot then m.read (row e q) ||| mask p else m.read (row e q) := by
  unfold setDot
  cases dot
  · simp
  · simp only [if_true, Memory.read_write hm, row_inj, and_true]
    split
    · next h => obtain ⟨rfl, rfl⟩ := h; rfl
    · rfl

/-- A bit of the display after a valid digit write: the column takes the pattern and the dot, every other bit stays.
40_buffer_codec.md R80. -/
theorem setDigitF_read {m : Memory} (hm : m.wf) {d p : Byte} (hd : d < 2) (hp : p < 8) (pat : Byte) (dot : Bool)
    (e : BitVec 1) (q : BitVec 3) :
    (setDigitF m d p pat dot).read (row e q) =
      if e = d.setWidth 1 then
        (m.read (row e q) &&& ~~~(mask (p.setWidth 3))) |||
          (if (if q = dotRow then dot else pat.getLsbD q.toNat) then mask (p.setWidth 3) else 0)
      else m.read (row e q) := by
  simp only [setDigitF, coord_valid hd hp]
  have w1 := clearColumn_wf hm (d.setWidth 1) (p.setWidth 3)
  rw [setDot_read (setSegments_wf w1 _ _ pat), setSegments_read w1, clearColumn_read hm]
  by_cases he : e = d.setWidth 1 <;> by_cases hq : q = dotRow <;> cases dot <;>
    cases pat.getLsbD q.toNat <;> simp [he, hq]

/-! ## The commands' functions keep the canonical form -/

theorem setDigitF_wf {m : Memory} (hm : m.wf) (d p pat : Byte) (dot : Bool) : (setDigitF m d p pat dot).wf := by
  unfold setDigitF
  split
  · exact hm
  · exact setDot_wf (setSegments_wf (clearColumn_wf hm _ _) _ _ _) _ _ _

theorem setDigit16F_wf {m : Memory} (hm : m.wf) (q pat : Byte) (dot : Bool) : (setDigit16F m q pat dot).wf := by
  unfold setDigit16F
  split
  · exact setDigitF_wf hm _ _ _ _
  · exact hm

theorem clearDisplayF_wf {m : Memory} (hm : m.wf) (d : Byte) : (clearDisplayF m d).wf :=
  Memory.foldl_wf _ _ (fun _ _ h => setDigitF_wf h _ _ _ _) hm

theorem fillRows_wf {m : Memory} (hm : m.wf) (v : Byte) : (fillRows m v).wf :=
  Memory.foldl_wf _ _ (fun _ _ h => Memory.write_wf h _ _) hm

/-- A loop writing one value to rows leaves that value in them and every other row as it was. -/
theorem foldl_write_read (v : Byte) (l : List (BitVec 4)) {m : Memory} (hm : m.wf) (r : BitVec 4) :
    (l.foldl (fun out q => out.write q v) m).read r = if r ∈ l then v else m.read r := by
  induction l generalizing m with
  | nil => simp
  | cons q l ih =>
    rw [List.foldl_cons, ih (Memory.write_wf hm _ _), Memory.read_write hm]
    by_cases h1 : r = q <;> by_cases h2 : r ∈ l <;> simp [h1, h2]

theorem fillRows_read {m : Memory} (hm : m.wf) (v : Byte) (r : BitVec 4) : (fillRows m v).read r = v := by
  simp [fillRows, foldl_write_read v allRows hm, mem_allRows]

/-! ## writeString -/

theorem writeChars_nil (c : Config) (d : Byte) (slot : Nat) (m : Memory) : writeChars c d [] slot m = m := by
  rw [writeChars]

/-- Once 8 slots are filled nothing more is read. -/
theorem writeChars_full (c : Config) (d : Byte) (text : List Byte) {slot : Nat} (h : 8 ≤ slot) (m : Memory) :
    writeChars c d text slot m = m := by
  cases text with
  | nil => rw [writeChars]
  | cons ch text => rw [writeChars]; simp [h]

/-- An unrecognized character is skipped and takes no slot. -/
theorem writeChars_skip (c : Config) (d : Byte) {ch : Byte} (text : List Byte) {slot : Nat} (hs : slot < 8)
    (h : recognized c ch = none) (m : Memory) :
    writeChars c d (ch :: text) slot m = writeChars c d text slot m := by
  rw [writeChars]
  simp [Nat.not_le.mpr hs, h]

/-- A recognized character that a dot follows takes the slot with its dot. -/
theorem writeChars_dotted (c : Config) (d : Byte) {ch : Byte} {g : BitVec 7} (text : List Byte) {slot : Nat}
    (hs : slot < 8) (h : recognized c ch = some g) (m : Memory) :
    writeChars c d (ch :: dotChar :: text) slot m =
      writeChars c d text (slot + 1) (setDigitF m d (BitVec.ofNat 8 slot) (g.setWidth 8) true) := by
  rw [writeChars]
  simp [Nat.not_le.mpr hs, h]

/-- A recognized character that no dot follows takes the slot without one. -/
theorem writeChars_plain (c : Config) (d : Byte) {ch : Byte} {g : BitVec 7} (text : List Byte) {slot : Nat}
    (hs : slot < 8) (h : recognized c ch = some g) (hd : text.head? ≠ some dotChar) (m : Memory) :
    writeChars c d (ch :: text) slot m =
      writeChars c d text (slot + 1) (setDigitF m d (BitVec.ofNat 8 slot) (g.setWidth 8) false) := by
  rw [writeChars]
  simp only [Nat.not_le.mpr hs, if_false, h]
  cases text with
  | nil => simp [writeChars_nil]
  | cons x text =>
    have : x ≠ dotChar := by simpa using hd
    simp [this]

/-- What the scan can do with a text: it ends, skips a character, or writes a digit with or without its dot. A property
of buffers that every digit write keeps is kept by the scan. -/
theorem writeChars_induct (c : Config) (d : Byte) (P : Memory → Prop)
    (hP : ∀ m p pat dot, P m → P (setDigitF m d p pat dot)) (n : Nat) :
    ∀ text slot m, text.length ≤ n → P m → P (writeChars c d text slot m) := by
  induction n with
  | zero =>
    intro text slot m hn hm
    cases text with
    | nil => rwa [writeChars_nil]
    | cons ch text => simp at hn
  | succ n ih =>
    intro text slot m hn hm
    cases text with
    | nil => rwa [writeChars_nil]
    | cons ch text =>
      simp only [List.length_cons, Nat.add_le_add_iff_right] at hn
      by_cases hs : slot < 8
      · cases h : recognized c ch with
        | none => rw [writeChars_skip c d text hs h]; exact ih _ _ _ hn hm
        | some g =>
          by_cases hd : text.head? = some dotChar
          · cases text with
            | nil => simp at hd
            | cons x rest =>
              obtain rfl : x = dotChar := by simpa using hd
              rw [writeChars_dotted c d rest hs h]
              simp only [List.length_cons] at hn
              exact ih _ _ _ (by omega) (hP _ _ _ _ hm)
          · rw [writeChars_plain c d text hs h hd]
            exact ih _ _ _ hn (hP _ _ _ _ hm)
      · rwa [writeChars_full c d _ (by omega)]

theorem writeStringF_wf (c : Config) {m : Memory} (hm : m.wf) (d : Byte) (text : List Byte) :
    (writeStringF c m d text).wf :=
  writeChars_induct c d Memory.wf (fun _ _ _ _ h => setDigitF_wf h _ _ _ _) text.length text 0 _ (Nat.le_refl _)
    (clearDisplayF_wf hm d)

end Sys2Proof.Machine
end

