-- ==== Sys2Proof/Laws/Decode.lean ====
section
/-! SUPPORT. The laws of the decoder and encoder: the fields of a command word that was put together from fields, the
opcode table, and what a decoding can answer. -/

namespace Sys2Proof

/-! ## Fields of a command word -/

@[simp] theorem fieldOp_commandWord (op : BitVec 4) (d : Bool) (a b c : Byte) :
    fieldOp (commandWord op d a b c) = op := by
  unfold fieldOp commandWord
  ext i hi
  interval_cases i <;> simp

@[simp] theorem fieldD_commandWord (op : BitVec 4) (d : Bool) (a b c : Byte) :
    fieldD (commandWord op d a b c) = d := by
  unfold fieldD commandWord
  simp

@[simp] theorem fieldA_commandWord (op : BitVec 4) (d : Bool) (a b c : Byte) :
    fieldA (commandWord op d a b c) = a := by
  unfold fieldA commandWord
  ext i hi
  interval_cases i <;> simp

@[simp] theorem fieldB_commandWord (op : BitVec 4) (d : Bool) (a b c : Byte) :
    fieldB (commandWord op d a b c) = b := by
  unfold fieldB commandWord
  ext i hi
  interval_cases i <;> simp

@[simp] theorem fieldC_commandWord (op : BitVec 4) (d : Bool) (a b c : Byte) :
    fieldC (commandWord op d a b c) = c := by
  unfold fieldC commandWord
  ext i hi
  interval_cases i <;> simp

@[simp] theorem packWord_char0 (c0 c1 c2 c3 : Byte) :
    (packWord c0 c1 c2 c3).extractLsb' 0 8 = c0 := by
  unfold packWord
  ext i hi
  interval_cases i <;> simp

@[simp] theorem packWord_char1 (c0 c1 c2 c3 : Byte) :
    (packWord c0 c1 c2 c3).extractLsb' 8 8 = c1 := by
  unfold packWord
  ext i hi
  interval_cases i <;> simp

@[simp] theorem packWord_char2 (c0 c1 c2 c3 : Byte) :
    (packWord c0 c1 c2 c3).extractLsb' 16 8 = c2 := by
  unfold packWord
  ext i hi
  interval_cases i <;> simp

@[simp] theorem packWord_char3 (c0 c1 c2 c3 : Byte) :
    (packWord c0 c1 c2 c3).extractLsb' 24 8 = c3 := by
  unfold packWord
  ext i hi
  interval_cases i <;> simp

/-! ## The opcode table -/

@[simp] theorem opOfCode_code (x : Op) : opOfCode x.code = some x := by
  cases x <;> decide

theorem mem_all (x : Op) : x ∈ Op.all := by cases x <;> decide

/-- A word that a row accepts has the row's opcode. 30_encoding.md R62. -/
theorem Op.code_of_accepts {x : Op} {w : Word} (h : x.accepts w = true) : fieldOp w = x.code := by
  have hw : w &&& x.mask = x.matchWord := by simpa [Op.accepts] using h
  have hf : fieldOp (w &&& x.mask) = fieldOp w &&& fieldOp x.mask := by
    unfold fieldOp
    ext i hi
    simp [BitVec.getElem_extractLsb']
  rw [hw] at hf
  have hm : fieldOp x.mask = BitVec.allOnes 4 := by cases x <;> decide
  rw [hm, BitVec.and_allOnes] at hf
  rw [← hf]
  cases x <;> decide

/-! ## What a decoding answers -/

theorem commandLength_pos (w : Word) : 1 ≤ commandLength w := by
  unfold commandLength
  split
  · omega
  · split <;> omega

/-- A decoding that is not waiting consumes the words the command word counts, and they are there. -/
theorem decode_length {ws : List Word} {n : Nat}
    (h : (∃ i, decode ws = .command i n) ∨ ∃ why, decode ws = .illegal why n) :
    ∃ w ds, ws = w :: ds ∧ n = commandLength w ∧ n ≤ ws.length := by
  cases ws with
  | nil => simp [decode] at h
  | cons w ds =>
    refine ⟨w, ds, rfl, ?_⟩
    by_cases hl : ds.length + 1 < commandLength w
    · simp [decode, hl] at h
    · simp only [decode, hl, if_false] at h
      cases hd : decodeWord w (ds.take (commandLength w - 1)) with
      | ok i =>
        simp only [hd] at h
        obtain ⟨_, h⟩ | ⟨_, h⟩ := h
        · injection h with _ h
          simp only [List.length_cons]; omega
        · cases h
      | error why =>
        simp only [hd] at h
        obtain ⟨_, h⟩ | ⟨_, h⟩ := h
        · cases h
        · injection h with _ h
          simp only [List.length_cons]; omega

@[simp] theorem decode_nil : decode [] = .incomplete := rfl

/-- A decoding waits exactly while words are missing. 30_encoding.md R64. -/
theorem decode_incomplete_iff (w : Word) (ds : List Word) :
    decode (w :: ds) = .incomplete ↔ ds.length + 1 < commandLength w := by
  simp only [decode]
  split
  · simp [*]
  · split <;> simp [*]

theorem textOf_length (n : Nat) (ds : List Word) : (textOf n ds).length = n := by simp [textOf]

theorem textWords_length (text : List Byte) : (textWords text).length = textWordCount text.length := by
  simp [textWords]

/-- A word that a row accepts, with all its data words, decodes to that row's command. 30_encoding.md R70. -/
theorem decode_accepts {w : Word} {ds : List Word} {x : Op} (h : x.accepts w = true)
    (hl : commandLength w ≤ ds.length + 1) :
    decode (w :: ds) = .command (x.operands w (ds.take (commandLength w - 1))) (commandLength w) := by
  simp only [decode, if_neg (show ¬ ds.length + 1 < commandLength w by omega), decodeWord, Op.code_of_accepts h,
    opOfCode_code, h, if_true]

/-! ## Texts -/

/-- A character packed into the data words is read back from them. 30_encoding.md R65. -/
theorem charAt_textWords (text : List Byte) {i : Nat} (h : i < text.length) :
    charAt (textWords text) i = text.getD i 0 := by
  have hj : i / 4 < textWordCount text.length := by unfold textWordCount; omega
  unfold charAt textWords
  rw [List.getD_eq_getElem?_getD, List.getElem?_map, List.getElem?_range hj]
  simp only [Option.map_some, Option.getD_some]
  have h4 : i % 4 = 0 ∨ i % 4 = 1 ∨ i % 4 = 2 ∨ i % 4 = 3 := by omega
  rcases h4 with h4 | h4 | h4 | h4
  · rw [h4, show 4 * (i / 4) = i by omega]; simp
  · rw [h4, show 4 * (i / 4) + 1 = i by omega]; simp
  · rw [h4, show 4 * (i / 4) + 2 = i by omega]; simp
  · rw [h4, show 4 * (i / 4) + 3 = i by omega]; simp

theorem textOf_textWords (text : List Byte) : textOf text.length (textWords text) = text := by
  apply List.ext_getElem
  · simp [textOf]
  · intro i h1 h2
    simp only [textOf, List.getElem_map, List.getElem_range]
    rw [charAt_textWords text h2]
    simp [List.getD_eq_getElem?_getD, h2]

end Sys2Proof
end

