-- ==== Sys2Proof/Laws/PerInstr.lean ====
section
/-! SUPPORT. What holds of the encoding of every instruction, one lemma per constructor: its first word is the word of a
row of the opcode table, with that row's opcode, and it has as many words as that word counts. -/

namespace Sys2Proof.Laws.EncodesItsRow

/-- The encoding of `i` begins with a word that a row of the table accepts, and a well-formed instruction has as many
words as that word counts. 30_encoding.md R62, R64. -/
def Statement (i : Instr) : Prop :=
  ∃ (x : Op) (w : Word) (ds : List Word), encode i = w :: ds ∧ x.accepts w = true ∧ fieldOp w = x.code ∧
    (i.wellFormed = true → commandLength w = ds.length + 1)

/-- A command word whose unused fields are zero is accepted by its row. -/
theorem statement_of_word {i : Instr} (x : Op) {op : BitVec 4} {d : Bool} {a b c : Byte} (ds : List Word)
    (he : encode i = commandWord op d a b c :: ds) (hop : op = x.code)
    (hacc : commandWord op d a b c &&& x.mask = x.matchWord)
    (hlen : i.wellFormed = true → commandLength (commandWord op d a b c) = ds.length + 1) : Statement i :=
  ⟨x, _, ds, he, by simp [Op.accepts, hacc], by simp [hop], hlen⟩

theorem setDigit (display position pattern : Byte) (dot : Bool) :
    Statement (.setDigit display position pattern dot) := by
  refine statement_of_word .setDigit [] rfl rfl ?_ fun _ => by simp [commandLength]
  unfold commandWord Op.mask Op.matchWord
  ext i hi
  interval_cases i <;> simp

theorem setDigit16 (position16 pattern : Byte) (dot : Bool) : Statement (.setDigit16 position16 pattern dot) := by
  refine statement_of_word .setDigit16 [] rfl rfl ?_ fun _ => by simp [commandLength]
  unfold commandWord Op.mask Op.matchWord
  ext i hi
  interval_cases i <;> simp

theorem clearDisplay (display : Byte) : Statement (.clearDisplay display) := by
  refine statement_of_word .clearDisplay [] rfl rfl ?_ fun _ => by simp [commandLength]
  unfold commandWord Op.mask Op.matchWord
  ext i hi
  interval_cases i <;> simp

theorem clearAll : Statement .clearAll :=
  statement_of_word .clearAll [] rfl rfl (by decide) fun _ => by decide

theorem fillAll : Statement .fillAll :=
  statement_of_word .fillAll [] rfl rfl (by decide) fun _ => by decide

theorem writeString (display : Byte) (text : List Byte) : Statement (.writeString display text) := by
  refine statement_of_word .writeString (textWords text) rfl rfl ?_ fun h => ?_
  · generalize BitVec.ofNat 8 text.length = n
    unfold commandWord Op.mask Op.matchWord
    ext i hi
    interval_cases i <;> simp
  · have hl : text.length ≤ 255 := by simpa [Instr.wellFormed] using h
    simp [commandLength, textWords_length, Nat.mod_eq_of_lt (show text.length < 256 by omega)]
    omega

theorem flush : Statement .flush :=
  statement_of_word .flush [] rfl rfl (by decide) fun _ => by decide

theorem setBrightness (level : Byte) : Statement (.setBrightness level) := by
  refine statement_of_word .setBrightness [] rfl rfl ?_ fun _ => by simp [commandLength]
  unfold commandWord Op.mask Op.matchWord
  ext i hi
  interval_cases i <;> simp

theorem configure : Statement .configure :=
  statement_of_word .configure [] rfl rfl (by decide) fun _ => by decide

theorem fadeStart (delay : Word) : Statement (.fadeStart delay) :=
  statement_of_word .fadeStart [delay] rfl rfl (by decide) fun _ => by simp [commandLength]

theorem fadeTick : Statement .fadeTick :=
  statement_of_word .fadeTick [] rfl rfl (by decide) fun _ => by decide

theorem fadeBlocking (delay : Word) : Statement (.fadeBlocking delay) :=
  statement_of_word .fadeBlocking [delay] rfl rfl (by decide) fun _ => by simp [commandLength]

end Sys2Proof.Laws.EncodesItsRow
end

