-- ==== Sys2Proof/Laws/Step.lean ====
section
/-! SUPPORT. What a command and a step can do: every command answers a next state, and a step takes one of six courses. -/

namespace Sys2Proof.Machine

/-- The state a command leads to. -/
def afterCommand : Instr → State → State
  | .setDigit d p pat dot, s => driveResult .ok (s.setBuf (setDigitF s.buf d p pat dot))
  | .setDigit16 q pat dot, s => driveResult .ok (s.setBuf (setDigit16F s.buf q pat dot))
  | .clearDisplay d, s => driveResult .ok (s.setBuf (clearDisplayF s.buf d))
  | .clearAll, s => driveResult .ok (s.setBuf (fillRows s.buf 0x00))
  | .fillAll, s => driveResult .ok (s.setBuf (fillRows s.buf 0xFF))
  | .writeString d text, s => driveResult .ok (s.setBuf (writeStringF s.cfg s.buf d text))
  | .flush, s => finish s (flushBuffer s)
  | .setBrightness level, s => finish s (applyBrightness (clampLevel level) s)
  | .configure, s => finish s (configureChip s)
  | .fadeStart d, s => driveResult .ok (if s.fadeState = .idle then armFade d s else s)
  | .fadeTick, s =>
    if s.fadeState = .idle then driveResult .ok s
    else if elapsed s then finish s (fadeStepF s)
    else driveResult .ok s
  | .fadeBlocking d, s =>
    if s.fadeState = .idle then { armFade d s with blocking := true, blockErr := false }
    else driveResult .ok s

/-- Every command answers a next state. -/
theorem exec_eq (i : Instr) (s : State) : exec i s = .next (afterCommand i s) := by
  cases i <;> rfl

/-- How a command ends: with an OK result and no transaction; over the bus; or, arming a blocking fade, not yet. -/
theorem afterCommand_cases (i : Instr) (s : State) :
    ((afterCommand i s).outputs = s.outputs ++ [.result .ok ((afterCommand i s).fadeState != .idle)] ∧
        (afterCommand i s).hung = s.hung ∧ ¬ ((∃ d, i = .fadeBlocking d) ∧ s.fadeState = .idle) ∧
        ¬ (i = .flush ∨ (∃ level, i = .setBrightness level) ∨ i = .configure ∨
          (i = .fadeTick ∧ s.fadeState ≠ .idle ∧ elapsed s = true))) ∨
      (∃ o evs, BusPart s o evs ∧ afterCommand i s = finish s o ∧ o.2.hung = s.hung ∧
        (i = .flush ∨ (∃ level, i = .setBrightness level) ∨ i = .configure ∨
          (i = .fadeTick ∧ s.fadeState ≠ .idle ∧ elapsed s = true))) ∨
      ((afterCommand i s).outputs = s.outputs ∧ (afterCommand i s).hung = s.hung ∧
        (∃ d, i = .fadeBlocking d) ∧ s.fadeState = .idle) := by
  cases i with
  | setDigit | setDigit16 | clearDisplay | clearAll | fillAll | writeString =>
    refine .inl ⟨?_, ?_, ?_, ?_⟩ <;> simp [afterCommand, fading]
  | flush => exact .inr (.inl ⟨_, _, flushBuffer_part s, by simp [afterCommand], by simp, by simp⟩)
  | setBrightness level => exact .inr (.inl ⟨_, _, applyBrightness_part (clampLevel level) s, by simp [afterCommand], by simp, by simp⟩)
  | configure =>
    obtain ⟨evs, h⟩ := configureChip_part s
    refine .inr (.inl ⟨_, _, h, by simp [afterCommand], ?_, by simp⟩)
    rcases configureChip_cases s with h | h | h <;> simp [h.2]
  | fadeStart d =>
    by_cases hi : s.fadeState = .idle
    · refine .inl ⟨?_, ?_, ?_, ?_⟩ <;> simp [afterCommand, hi, fading]
    · refine .inl ⟨?_, ?_, ?_, ?_⟩ <;> simp [afterCommand, hi, fading]
  | fadeTick =>
    by_cases hi : s.fadeState = .idle
    · refine .inl ⟨?_, ?_, ?_, ?_⟩ <;> simp [afterCommand, hi, fading]
    · by_cases he : elapsed s
      · obtain ⟨evs, h⟩ := fadeStepF_part s
        exact .inr (.inl ⟨_, _, h, by simp [afterCommand, hi, he], (fadeStepF_frame s).2.2.2.2.1, by simp [hi, he]⟩)
      · refine .inl ⟨?_, ?_, ?_, ?_⟩ <;> simp [afterCommand, hi, he, fading]
  | fadeBlocking d =>
    by_cases hi : s.fadeState = .idle
    · refine .inr (.inr ⟨?_, ?_, ⟨d, rfl⟩, hi⟩) <;> simp [afterCommand, hi]
    · refine .inl ⟨?_, ?_, ?_, ?_⟩ <;> simp [afterCommand, hi, fading]

/-- A step with no reset in its turn is the block's part after the turn. -/
theorem step_of_run {s : State} (h : ∀ ts, s.turns ≠ .reset :: ts) : step s = runBlock (takeTurn s) := by
  unfold step runTurn
  split
  · rfl
  · next hr => exact absurd hr (h _)
  · rfl

/-- A ready block takes the next command. -/
theorem runBlock_ready {s : State} (hh : s.hung = none) (hb : s.blocking = false) : runBlock s = takeCommand s := by
  simp [runBlock, hh, hb]

/-- A block running a blocking fade makes an internal step. -/
theorem runBlock_blocking {s : State} (hh : s.hung = none) (hb : s.blocking = true) :
    runBlock s = .next (internalStep s) := by
  simp [runBlock, hh, hb]

/-- A hung block does nothing. -/
theorem runBlock_hung {s : State} (hh : s.hung ≠ none) : runBlock s = .next s := by
  simp [runBlock, Option.isSome_iff_ne_none, hh]

/-- Everything a step can do: a reset; or, after the environment's turn, nothing (the block hangs), an internal step,
waiting for words, discarding an illegal command, or running a command. -/
theorem step_cases {s t : State} (h : step s = .next t) :
    (∃ ts, s.turns = .reset :: ts ∧ t = resetBlock (takeTurn s)) ∨
      ((takeTurn s).hung ≠ none ∧ t = takeTurn s) ∨
      ((takeTurn s).hung = none ∧ (takeTurn s).blocking = true ∧ t = internalStep (takeTurn s)) ∨
      ((takeTurn s).hung = none ∧ (takeTurn s).blocking = false ∧ decode (takeTurn s).stream = .incomplete ∧
        t = receiveWords (takeTurn s)) ∨
      ((takeTurn s).hung = none ∧ (takeTurn s).blocking = false ∧
        ∃ why n, decode (takeTurn s).stream = .illegal why n ∧ t = illegalCommand (takeWords n (takeTurn s))) ∨
      ((takeTurn s).hung = none ∧ (takeTurn s).blocking = false ∧
        ∃ i n, decode (takeTurn s).stream = .command i n ∧ t = afterCommand i (takeWords n (takeTurn s))) := by
  have block : ∀ {u : State}, runBlock u = .next t →
      (u.hung ≠ none ∧ t = u) ∨ (u.hung = none ∧ u.blocking = true ∧ t = internalStep u) ∨
        (u.hung = none ∧ u.blocking = false ∧ decode u.stream = .incomplete ∧ t = receiveWords u) ∨
        (u.hung = none ∧ u.blocking = false ∧
          ∃ why n, decode u.stream = .illegal why n ∧ t = illegalCommand (takeWords n u)) ∨
        (u.hung = none ∧ u.blocking = false ∧
          ∃ i n, decode u.stream = .command i n ∧ t = afterCommand i (takeWords n u)) := by
    intro u hu
    unfold runBlock at hu
    cases hh : u.hung with
    | some o => simp [hh] at hu; simp [hu]
    | none =>
      cases hb : u.blocking with
      | true => simp [hh, hb] at hu; simp [hu]
      | false =>
        simp only [hh, hb, Option.isSome_none, Bool.false_eq_true, if_false, takeCommand, exec_eq] at hu
        cases hd : decode u.stream <;> simp [hd] at hu <;> simp [hu]
  unfold step runTurn at h
  cases hs : s.turns with
  | nil => simp only [hs] at h; exact .inr (block h)
  | cons u ts =>
    cases u with
    | reset => simp only [hs, Host.Outcome.next.injEq] at h; exact .inl ⟨ts, rfl, h.symm⟩
    | run now ws => simp only [hs] at h; exact .inr (block h)

end Sys2Proof.Machine
end

