-- ==== Sys2Proof/Tests/Slice0.lean ====
section
/-! SUPPORT. Tests with the results of spec/95_test_vectors.md (the vector's name stands in each comment) and of the
rules' examples, and for every statement that has hypotheses a state that meets them. -/

namespace Sys2Proof.Machine.Tests

/-! ## Helpers -/

/-- A buffer from its 16 rows. -/
def bufOf (rows : List Byte) : Memory :=
  (List.range 16).foldl (fun m k => m.write (BitVec.ofNat 4 k) (rows.getD k 0)) []

/-- The all-0xFF buffer F of the vectors. -/
def bufF : Memory := bufOf (List.replicate 16 0xFF)

/-- The reset state with a buffer. -/
def withBuf (m : Memory) : State := { State.reset with buf := m }

/-- The reset state with the environment's answers. -/
def answering (rs : List BusReply) : State := { State.reset with busReplies := rs }

/-- A state of the fade controller, every listed answer `ok`. -/
def fadingState (f : FadeState) (st : BitVec 4) (delay last now : Word) : State :=
  { State.reset with fadeState := f, step := st, delay := delay, last := last, now := now, busReplies := [.ok, .ok] }

/-- The state a command leads to. -/
def run1 (i : Instr) (s : State) : State :=
  match exec i s with
  | .next t => t
  | .fault _ => s
  | .refused _ => s

/-- The state a step leads to. -/
def step1 (s : State) : State :=
  match step s with
  | .next t => t
  | .fault _ => s
  | .refused _ => s

/-! ## Well-formedness: one check, one term it refuses -/

theorem smoke_text_of_256_characters_refused :
    (Instr.writeString 0 (List.replicate 256 0x31)).wellFormed = false := by decide +kernel

theorem smoke_text_of_255_characters_accepted :
    (Instr.writeString 0 (List.replicate 255 0x31)).wellFormed = true := by decide +kernel

/-! ## Decoding: words written out from the encodings of 30_encoding.md R62 -/

-- 0001000D AAAAAAAA BBBBBBBB CCCCCCCC with D = 1, A = 1, B = 3, C = 0x7F (example of R81)
theorem test_decode_setDigit :
    decode [0b00010001_00000001_00000011_01111111] = .command (.setDigit 1 3 0x7F true) 1 := by decide
-- 0010000D 00000000 BBBBBBBB CCCCCCCC with D = 0, B = 9, C = 6 (example of R83)
theorem test_decode_setDigit16 :
    decode [0b00100000_00000000_00001001_00000110] = .command (.setDigit16 9 0x06 false) 1 := by decide
-- 00110000 AAAAAAAA 00000000 00000000 with A = 1 (example of R84)
theorem test_decode_clearDisplay :
    decode [0b00110000_00000001_00000000_00000000] = .command (.clearDisplay 1) 1 := by decide
theorem test_decode_clearAll : decode [0b01000000_00000000_00000000_00000000] = .command .clearAll 1 := by decide
theorem test_decode_fillAll : decode [0b01010000_00000000_00000000_00000000] = .command .fillAll 1 := by decide
-- 01100000 AAAAAAAA 00000000 CCCCCCCC with A = 0, N = 4, then "3.14" lowest byte first (W12)
theorem test_decode_writeString :
    decode [0b01100000_00000000_00000000_00000100, 0x34312E33, 0x40000000] =
      .command (.writeString 0 [0x33, 0x2E, 0x31, 0x34]) 2 := by decide
theorem test_decode_flush : decode [0b01110000_00000000_00000000_00000000] = .command .flush 1 := by decide
-- 10000000 00000000 00000000 CCCCCCCC with C = 255 (E11)
theorem test_decode_setBrightness :
    decode [0b10000000_00000000_00000000_11111111] = .command (.setBrightness 255) 1 := by decide
theorem test_decode_configure : decode [0b10010000_00000000_00000000_00000000] = .command .configure 1 := by decide
-- the delay is the next word (example of R121)
theorem test_decode_fadeStart :
    decode [0b10100000_00000000_00000000_00000000, 0x0000000A] = .command (.fadeStart 10) 2 := by decide
theorem test_decode_fadeTick : decode [0b10110000_00000000_00000000_00000000] = .command .fadeTick 1 := by decide
theorem test_decode_fadeBlocking :
    decode [0b11000000_00000000_00000000_00000000, 0xFFFFFFFF] = .command (.fadeBlocking 0xFFFFFFFF) 2 := by decide

-- E1, E2
theorem test_decode_reserved_opcodes :
    [0x00000000, 0xD0000000, 0xE0000000, 0xF0000006].map (fun w => decode [w]) =
      List.replicate 4 (.illegal .reservedOpcode 1) := by decide
-- E3 to E7
theorem test_decode_reserved_bits :
    [0x12000000, 0x40000001, 0x70000001, 0xB0000001, 0x20010906].map (fun w => decode [w]) =
      List.replicate 5 (.illegal .reservedBits 1) := by decide
-- E8, E9: the data words are consumed with the illegal word
theorem test_decode_illegal_lengths :
    decode [0xA0000001, 0x00000005] = .illegal .reservedBits 2 ∧
      decode [0x61000005, 0x31313131, 0x00000031] = .illegal .reservedBits 3 := by decide
-- E10
theorem test_longest_command_is_65_words : commandLength 0x600000FF = 65 := by decide
theorem test_decode_waits_for_the_delay_word : decode [0xA0000000] = .incomplete := by decide
-- the opcode table's word alone, its operand words zero
theorem test_decodeTableWord :
    decodeTableWord 32 0x6001000A = some (.writeString 1 (List.replicate 10 0)) ∧
      decodeTableWord 32 0xC0000000 = some (.fadeBlocking 0) := by decide

/-! ## Buffer codec -/

-- C4: pattern bit 7 ignored, dot set
theorem test_setDigit_dot_only :
    rowsOf (run1 (.setDigit 0 7 0x80 true) (withBuf [])).buf =
      [0, 0, 0, 0, 0, 0, 0, 0x80, 0, 0, 0, 0, 0, 0, 0, 0] := by decide
-- C5: clears its column only
theorem test_setDigit_clears_its_column :
    rowsOf (run1 (.setDigit 0 7 0x80 false) (withBuf bufF)).buf =
      List.replicate 8 0x7F ++ List.replicate 8 0xFF := by decide
-- C12
theorem test_setDigit16_nine :
    rowsOf (run1 (.setDigit16 9 0x06 false) (withBuf [])).buf =
      [0, 0, 0, 0, 0, 0, 0, 0, 0, 0x02, 0x02, 0, 0, 0, 0, 0] := by decide
-- C15: out of range, no change, (0, 0)
theorem test_setDigit16_sixteen :
    run1 (.setDigit16 16 0x7F true) (withBuf bufF) = { withBuf bufF with outputs := [.result .ok false] } := by decide
-- C16
theorem test_clearDisplay_one :
    rowsOf (run1 (.clearDisplay 1) (withBuf bufF)).buf = List.replicate 8 0xFF ++ List.replicate 8 0 := by decide +kernel
-- C17
theorem test_clearDisplay_two : (run1 (.clearDisplay 2) (withBuf bufF)).buf = bufF := by decide
-- C18
theorem test_clearAll : (run1 .clearAll (withBuf bufF)).buf = [] := by decide
-- C19
theorem test_fillAll : (run1 .fillAll (withBuf [])).buf = bufF := by decide
-- C20: the result of a codec command shows a fade in progress
theorem test_codec_result_while_fading :
    (run1 (.setDigit 0 0 0x06 false) (fadingState .fadingOut 5 1 0 0)).outputs = [.result .ok true] := by decide

/-! ## Device state -/

-- W8 (default GLYPH): "12345678.9" on display 1
theorem test_writeString_eight_slots :
    rowsOf (run1 (.writeString 1 [0x31, 0x32, 0x33, 0x34, 0x35, 0x36, 0x37, 0x38, 0x2E, 0x39]) (withBuf [])).buf =
      [0, 0, 0, 0, 0, 0, 0, 0, 0xF6, 0xCF, 0xFD, 0xB6, 0xA2, 0xB8, 0xBE, 0x80] := by decide +kernel
-- S4, the source's regression scenario
theorem test_source_scenario :
    rowsOf (writeStringF defaultConfig (writeStringF defaultConfig [] 0 [0x31, 0x2E]) 1 [0x32]) =
      [0, 1, 1, 0, 0, 0, 0, 1, 1, 1, 0, 1, 1, 0, 1, 0] := by decide +kernel
-- B2: the payload of S4's buffer
theorem test_flush_payload :
    (run1 .flush { withBuf (bufOf [0, 1, 1, 0, 0, 0, 0, 1, 1, 1, 0, 1, 1, 0, 1, 0]) with
        busReplies := [.ok] }).outputs =
      [.bus 0x70 [0, 0, 1, 1, 0, 0, 0, 0, 1, 1, 1, 0, 1, 1, 0, 1, 0] .ok, .result .ok false] := by decide
-- B3: answered `err`
theorem test_flush_err :
    (run1 .flush { withBuf bufF with busReplies := [.err] }).outputs =
      [.bus 0x70 (0x00 :: List.replicate 16 0xFF) .err, .result .transportError false] := by decide
-- B6
theorem test_setBrightness_clamps :
    run1 (.setBrightness 16) (answering [.ok]) =
      { State.reset with brightness := 15, outputs := [.bus 0x70 [0xEF] .ok, .result .ok false] } := by decide
-- B9: the level is kept
theorem test_setBrightness_err :
    run1 (.setBrightness 7) (answering [.err]) =
      { State.reset with brightness := 7, outputs := [.bus 0x70 [0xE7] .err, .result .transportError false] } := by
  decide
-- B10
theorem test_configure :
    run1 .configure (answering [.ok, .ok, .ok]) =
      { State.reset with
        brightness := 15
        outputs := [.bus 0x70 [0x21] .ok, .bus 0x70 [0x81] .ok, .bus 0x70 [0xEF] .ok, .result .ok false] } := by decide
-- B12: the second answer is `err`
theorem test_configure_err :
    run1 .configure (answering [.ok, .err]) =
      { State.reset with
        outputs := [.bus 0x70 [0x21] .ok, .bus 0x70 [0x81] .err, .result .transportError false] } := by decide

/-! ## Fade controller -/

-- T2
theorem test_fadeStart :
    run1 (.fadeStart 10) { State.reset with brightness := 3, now := 100 } =
      { State.reset with
        brightness := 3, now := 100, fadeState := .fadingOut, step := 15, delay := 10, last := 100
        outputs := [.result .ok true] } := by decide
-- T6: ignored while fading
theorem test_fadeStart_ignored :
    (run1 (.fadeStart 99) (fadingState .fadingOut 14 10 110 119)).delay = 10 := by decide
-- T8: the dark point
theorem test_fadeTick_dark_point :
    run1 .fadeTick { fadingState .fadingOut 0 1 0 1 with buf := bufF } =
      { State.reset with
        buf := bufF, fadeState := .fadingIn, step := 0, brightness := 0, delay := 1, last := 1, now := 1
        outputs :=
          [.bus 0x70 [0xE0] .ok, .bus 0x70 (0x00 :: List.replicate 16 0xFF) .ok, .result .ok true] } := by decide
-- T10, T11: the elapsed time across the wrap
theorem test_fadeTick_wrap :
    (run1 .fadeTick (fadingState .fadingOut 5 0x20 0xFFFFFFF0 0x0000000F)).step = 5 ∧
      (run1 .fadeTick (fadingState .fadingOut 5 0x20 0xFFFFFFF0 0x00000010)).step = 4 := by decide
-- R126: arms, the port closed, no result
theorem test_fadeBlocking_arms :
    run1 (.fadeBlocking 5) { State.reset with now := 10 } =
      { State.reset with
        now := 10, fadeState := .fadingOut, step := 15, delay := 5, last := 10, blocking := true } := by decide
-- T14: ignored
theorem test_fadeBlocking_ignored :
    (run1 (.fadeBlocking 3) (fadingState .fadingIn 4 1 0 0)).outputs = [.result .ok true] := by decide
-- T9 as an internal step: the fade ends, the port opens, the result is driven once
theorem test_internalStep_ends :
    internalStep { fadingState .fadingIn 15 1 0 1 with blocking := true, blockErr := true, busReplies := [.ok] } =
      { State.reset with
        step := 15, brightness := 15, delay := 1, last := 1, now := 1
        outputs := [.bus 0x70 [0xEF] .ok, .result .transportError false] } := by decide

/-! ## Steps -/

-- E8: two words consumed, (2, 0), the state Idle
theorem test_step_illegal :
    step1 { State.reset with turns := [.run 3 [0xA0000001, 0x00000005, 0x40000000]] } =
      { State.reset with now := 3, offered := [0x40000000], outputs := [.result .illegalCommand false] } := by decide
-- R160: a partly received command is discarded, a hang and a blocking fade are left
theorem test_step_reset :
    step1 { fadingState .fadingOut 3 1 0 0 with
        blocking := true, received := [0xA0000000], turns := [.reset], busReplies := [] } = State.reset := by decide
-- a word of the opcode table is the command the next step runs
theorem test_withFetchWord :
    (step1 (State.reset.withFetchWord 32 0x50000000)).buf = bufF := by decide
/-! ## Assembler -/

theorem test_assemble_setDigit :
    assembleLine (asciiBytes "setDigit 1, 3, 0x7F, 1 ; example of R81") = .command (.setDigit 1 3 0x7F true) := by
  decide
theorem test_assemble_text :
    assembleLine (asciiBytes "  writeString 0, \"1.\"") = .command (.writeString 0 [0x31, 0x2E]) := by decide
theorem test_assemble_refuses_256 : assembleLine (asciiBytes "setBrightness 256") = .refusedLine := by decide

/-! ## Witnesses: for every statement with hypotheses, states and operands that meet them, one for each clause -/

/-- The longest text. -/
def longText : List Byte := List.replicate 255 0x31

theorem witness_DecodeOfEncodeIsTheCommand :
    (Instr.setDigit 255 255 0x80 true).wellFormed = true ∧ (Instr.writeString 1 []).wellFormed = true ∧
      (Instr.writeString 1 longText).wellFormed = true := by decide +kernel

theorem witness_EncodeOfDecodeIsTheWordsTaken :
    decode [0x21000801, 0xFFFFFFFF] = .command (.setDigit16 8 1 true) 1 ∧
      decode [0x60000001, 0xFFFFFF31] = .command (.writeString 0 [0x31]) 2 := by decide

-- a reserved opcode, an accepted word, a reserved bit, each with its last data word just there
theorem witness_EveryCommandWordMatchesOneRowOrIsIllegal :
    commandLength 0xF0000000 ≤ ([] : List Word).length + 1 ∧ commandLength 0xC0000000 ≤ [(0 : Word)].length + 1 ∧
      Op.fadeBlocking.accepts 0xC0000000 = true ∧ commandLength 0x61000005 ≤ [(0 : Word), 0].length + 1 ∧
      Op.writeString.accepts 0x61000005 = false := by decide

/-- The reset state with a turn that offers these words. -/
def offering (ws : List Word) : State := { State.reset with turns := [.run 7 ws] }

theorem offering_no_reset (ws : List Word) : ∀ ts, (offering ws).turns ≠ .reset :: ts := by simp [offering]

-- every length; a command with its delay word missing, and one with a word beyond it
theorem witness_CommandLengthComesFromTheCommandWordAlone :
    (0x600000FF : Word).extractLsb' 28 4 = 0x6 ∧ (0xA0000000 : Word).extractLsb' 28 4 = 0xA ∧
      (0xC0000001 : Word).extractLsb' 28 4 = 0xC ∧ (0x00000000 : Word).extractLsb' 28 4 = 0x0 ∧
      decode [0xC0000000] = .incomplete ∧ decode [0xC0000000, 7] = .command (.fadeBlocking 7) 2 ∧
      decode [0xC0000001, 7] = .illegal .reservedBits 2 ∧
      (∀ ws, (offering ws).hung = none ∧ (offering ws).blocking = false ∧ (∀ ts, (offering ws).turns ≠ .reset :: ts) ∧
        (takeTurn (offering ws)).received ++ (takeTurn (offering ws)).offered = ws) ∧
      [(0xC0000000 : Word)].length < commandLength 0xC0000000 ∧
      commandLength 0xC0000000 ≤ [(0xC0000000 : Word), 7, 9].length :=
  ⟨by decide, by decide, by decide, by decide, by decide, by decide, by decide,
    fun ws => ⟨rfl, rfl, offering_no_reset ws, rfl⟩, by decide, by decide⟩

-- N = 0 with no data word, N = 5 with two
theorem witness_WriteStringTakesItsBytesLowestFirst :
    (0x60000000 : Word) &&& 0xFF00FF00 = 0x60000000 ∧ ((0x60000000 : Word).extractLsb' 0 8).toNat = 0 ∧
      (0x60010005 : Word) &&& 0xFF00FF00 = 0x60000000 ∧
      (((0x60010005 : Word).extractLsb' 0 8).toNat + 3) / 4 ≤ [(0 : Word), 0].length := by decide

-- two commands offered, and the delay word of a command received before
theorem witness_StepRunsTheDecodedCommand :
    (offering [0x40000000, 0x50000000]).hung = none ∧ (offering [0x40000000, 0x50000000]).blocking = false ∧
      (∀ ts, (offering [0x40000000, 0x50000000]).turns ≠ .reset :: ts) ∧
      decode ((takeTurn (offering [0x40000000, 0x50000000])).received ++
        (takeTurn (offering [0x40000000, 0x50000000])).offered) = .command .clearAll 1 ∧
      decode ((takeTurn { offering [5] with received := [0xA0000000] }).received ++
        (takeTurn { offering [5] with received := [0xA0000000] }).offered) = .command (.fadeStart 5) 2 :=
  ⟨rfl, rfl, offering_no_reset _, by decide, by decide⟩

theorem witness_TurnSetsTheTimeAndOffersWords :
    (offering [1, 2]).turns = [.run 7 [1, 2]] ∧ State.reset.turns = [] := ⟨rfl, rfl⟩

theorem witness_PartOfACommandIsReceivedAndKept :
    (offering [0xA0000000]).hung = none ∧ (offering [0xA0000000]).blocking = false ∧
      (∀ ts, (offering [0xA0000000]).turns ≠ .reset :: ts) ∧
      decode ((takeTurn (offering [0xA0000000])).received ++ (takeTurn (offering [0xA0000000])).offered) =
        .incomplete := ⟨rfl, rfl, offering_no_reset _, by decide⟩

theorem witness_IllegalCommandIsDiscarded :
    (offering [0xC0000001, 9]).hung = none ∧ (offering [0xC0000001, 9]).blocking = false ∧
      (∀ ts, (offering [0xC0000001, 9]).turns ≠ .reset :: ts) ∧
      decode ((takeTurn (offering [0xC0000001, 9])).received ++ (takeTurn (offering [0xC0000001, 9])).offered) =
        .illegal .reservedBits 2 := ⟨rfl, rfl, offering_no_reset _, by decide⟩

theorem wf_bufF : bufF.wf := by
  unfold bufF bufOf
  exact Memory.foldl_wf _ _ (fun _ _ h => Memory.write_wf h _ _) Memory.nil_wf

theorem witness_RowWriteChangesThatRowOnly :
    bufF.wf ∧ (14 : BitVec 4) ≠ 15 ∧ 15 < 16 ∧ (0 : BitVec 4).toNat + 15 < 16 := ⟨wf_bufF, by decide, by decide, by decide⟩

-- the buffer; the last valid coordinate, the first invalid ones
theorem witness_SetDigitWritesOneColumn :
    (withBuf bufF).buf.wf ∧ ((1 : Byte) < 2 ∧ (7 : Byte) < 8) ∧ ¬ ((2 : Byte) < 2 ∧ (0 : Byte) < 8) ∧
      ¬ ((0 : Byte) < 2 ∧ (8 : Byte) < 8) ∧ (0x1101037F : Word) &&& 0xFE000000 = 0x10000000 :=
  ⟨wf_bufF, by decide, by decide, by decide, by decide⟩

theorem witness_LastWriteOfADigitWins : bufF.wf ∧ ((1 : Byte), (7 : Byte)) ≠ (0, 7) ∧ ((0 : Byte), (8 : Byte)) ≠ (0, 7) :=
  ⟨wf_bufF, by decide, by decide⟩

theorem witness_SetDigit16IsSetDigitAtTheSplitPosition :
    (15 : Byte).toNat < 16 ∧ 16 ≤ (16 : Byte).toNat ∧ (0x21000801 : Word) &&& 0xFEFF0000 = 0x20000000 := by decide

theorem witness_ClearDisplayBlanksOneDisplay :
    (withBuf bufF).buf.wf ∧ (1 : Byte) < 2 ∧ ¬ (2 : Byte) < 2 ∧ (0x30010000 : Word) &&& 0xFF00FFFF = 0x30000000 :=
  ⟨wf_bufF, by decide, by decide, by decide⟩

theorem witness_ClearAllZeroesTheBuffer : (withBuf bufF).buf.wf := wf_bufF

-- the flush after fillAll, answered
theorem witness_FillAllLightsEveryLamp :
    (answering [.ok]).buf.wf ∧
      exec .flush { answering [.ok] with buf := bufF } = .next (run1 .flush { answering [.ok] with buf := bufF }) :=
  ⟨Memory.nil_wf, rfl⟩

theorem witness_CodecCommandsChangeOnlyTheBuffer :
    isCodec (.setDigit 2 0 1 true) = true ∧ invalidCoordinate (.setDigit 2 0 1 true) = true ∧
      isCodec .fillAll = true ∧ (withBuf bufF).buf.wf := ⟨rfl, by decide, rfl, wf_bufF⟩

theorem witness_WriteStringShowsATextOnOneDisplay :
    (withBuf bufF).buf.wf ∧ ¬ (2 : Byte) < 2 ∧ (8 : BitVec 4).toNat / 8 ≠ (0 : Byte).toNat ∧
      (0x60010005 : Word) &&& 0xFF00FF00 = 0x60000000 ∧
      (((0x60010005 : Word).extractLsb' 0 8).toNat + 3) / 4 ≤ [(0 : Word), 0].length :=
  ⟨wf_bufF, by decide, by decide, by decide, by decide⟩

-- '1' recognized, 'x' not, with no dot after it; eight recognized characters
theorem witness_WriteStringCornerCases :
    recognized defaultConfig 0x31 = some 0x06 ∧ recognized defaultConfig 0x78 = none ∧ (0x78 : Byte) ≠ dotChar ∧
      [(0x32 : Byte)].head? ≠ some dotChar ∧ (List.replicate 8 (0x31 : Byte)).length = 8 ∧
      ∀ ch ∈ List.replicate 8 (0x31 : Byte), (recognized defaultConfig ch).isSome := by decide

theorem witness_FlushSendsTheWholeBuffer :
    (answering [.ok]).nextReply ≠ .never ∧ (answering [.err]).nextReply ≠ .never := by decide

theorem witness_SetBrightnessStoresAndSendsTheClampedLevel :
    (answering [.ok]).nextReply ≠ .never ∧ (answering [.err]).nextReply ≠ .never ∧
      (0x800000FF : Word) &&& 0xFFFFFF00 = 0x80000000 := by decide

-- the first, the second and the third transaction answered `err`
theorem witness_ConfigureStopsAtTheFirstFailure :
    (answering [.err]).nextReply = .err ∧ (answering [.ok, .err]).nextReply = .ok ∧
      (withBus [0x21] (answering [.ok, .err])).nextReply = .err ∧
      (withBus [0x21] (answering [.ok, .ok, .err])).nextReply = .ok ∧
      (withBus [0x81] (withBus [0x21] (answering [.ok, .ok, .err]))).nextReply ≠ .never := by decide

theorem witness_TransportErrorMeansAFailedTransaction :
    exec .flush (answering [.err]) = .next (run1 .flush (answering [.err])) ∧
      Output.result .transportError false ∈ newOutputs (answering [.err]) (run1 .flush (answering [.err])) ∧
      Output.result .ok false ∈ newOutputs (answering [.ok]) (run1 .flush (answering [.ok])) :=
  ⟨rfl, by decide, by decide⟩

/-- A step that answers a flush offered on the command port. -/
theorem witness_EveryTransactionIsOneOfFourPayloads :
    step { offering [0x70000000] with busReplies := [.ok] } =
        .next (step1 { offering [0x70000000] with busReplies := [.ok] }) ∧
      (newOutputs State.reset (step1 { offering [0x70000000] with busReplies := [.ok] })).length = 2 :=
  ⟨rfl, by decide⟩

/-- A blocking fade about to step. -/
def blockingState (f : FadeState) (st : BitVec 4) (now : Word) : State :=
  { fadingState f st 2 0 0 with blocking := true, turns := [.run now []] }

theorem blockingState_no_reset (f : FadeState) (st : BitVec 4) (now : Word) :
    ∀ ts, (blockingState f st now).turns ≠ .reset :: ts := by simp [blockingState]

/-- A blocking fade about to step, its transactions answered like this. -/
def blockingAnswered (f : FadeState) (st : BitVec 4) (rs : List BusReply) : State :=
  { blockingState f st 2 with busReplies := rs }

/-- A tick at the dark point, its transactions answered like this. -/
def darkTick (rs : List BusReply) : State := { fadingState .fadingOut 0 1 0 1 with busReplies := rs }

/-- After the brightness transaction of the dark point. -/
def afterDark (u : State) : State := withBus [u.cfg.brightBase] { u with last := u.now, brightness := 0 }

-- the flush answered `ok` and `err`; one byte answered `ok` and `err`, the RAM then unknown; a tick at the dark point, one
-- whose brightness is never answered; an internal step of each kind
theorem witness_ChipRamFollowsOnlyTheFlush :
    exec .flush (answering [.ok]) = .next (run1 .flush (answering [.ok])) ∧ (answering [.ok]).nextReply = .ok ∧
      (answering [.err]).nextReply ≠ .ok ∧
      exec .fillAll (answering []) = .next (run1 .fillAll (answering [])) ∧
      (∀ rs, exec (.setBrightness 1) (answering rs) = .next (run1 (.setBrightness 1) (answering rs))) ∧
      (∀ r ∈ busRepliesOf (newOutputs (answering [.ok]) (run1 (.setBrightness 1) (answering [.ok]))), r = .ok) ∧
      (∃ r ∈ busRepliesOf (newOutputs (answering [.err]) (run1 (.setBrightness 1) (answering [.err]))), r ≠ .ok) ∧
      chipRam (run1 (.setBrightness 1) (run1 .flush (answering [.ok, .err]))).outputs = none ∧
      (∀ rs, exec .fadeTick (darkTick rs) = .next (run1 .fadeTick (darkTick rs)) ∧
        (darkTick rs).fadeState = .fadingOut ∧ (darkTick rs).step = 0 ∧
        (darkTick rs).delay ≤ (darkTick rs).now - (darkTick rs).last) ∧
      (darkTick [.err, .ok]).nextReply ≠ .never ∧ (afterDark (darkTick [.err, .ok])).nextReply = .ok ∧
      (afterDark (darkTick [.ok, .err])).nextReply ≠ .ok ∧ ¬ (darkTick [.never]).nextReply ≠ .never ∧
      (∀ f st rs, (blockingAnswered f st rs).hung = none ∧ (blockingAnswered f st rs).blocking = true ∧
        (∀ ts, (blockingAnswered f st rs).turns ≠ .reset :: ts) ∧
        step (blockingAnswered f st rs) = .next (step1 (blockingAnswered f st rs))) ∧
      (takeTurn (blockingAnswered .fadingOut 0 [.ok, .ok])).delay ≤
        (takeTurn (blockingAnswered .fadingOut 0 [.ok, .ok])).now -
          (takeTurn (blockingAnswered .fadingOut 0 [.ok, .ok])).last ∧
      (afterDark (takeTurn (blockingAnswered .fadingOut 0 [.ok, .ok]))).nextReply = .ok ∧
      ¬ (takeTurn (blockingAnswered .fadingOut 1 [.ok])).step = 0 :=
  ⟨rfl, by decide, by decide, rfl, fun _ => rfl, by decide, by decide, by decide,
    fun _ => ⟨rfl, rfl, rfl, by show (1 : Word) ≤ 1 - 0; decide⟩, by decide, by decide, by decide, by decide,
    fun f st _ => ⟨rfl, rfl, blockingState_no_reset f st 2, rfl⟩, by decide, by decide, by decide⟩

theorem witness_FadeStartArmsAnIdleBlockOnly :
    State.reset.fadeState = .idle ∧ (fadingState .fadingIn 3 1 0 0).fadeState ≠ .idle := by decide

-- one unit short of the delay, across the wrap (T10)
theorem witness_TickWithoutAStepChangesNothing :
    State.reset.fadeState = .idle ∧
      (fadingState .fadingOut 5 0x20 0xFFFFFFF0 0x0F).fadeState ≠ .idle ∧
      ¬ (fadingState .fadingOut 5 0x20 0xFFFFFFF0 0x0F).delay ≤
        (fadingState .fadingOut 5 0x20 0xFFFFFFF0 0x0F).now - (fadingState .fadingOut 5 0x20 0xFFFFFFF0 0x0F).last := by
  decide

-- each of the four steps at the end of its range, the delay just elapsed
theorem witness_TickStepsByTheNextStateTable :
    (∀ f : FadeState, ∀ st : BitVec 4, (fadingState f st 1 0xFFFFFFFF 0).delay ≤
      (fadingState f st 1 0xFFFFFFFF 0).now - (fadingState f st 1 0xFFFFFFFF 0).last ∧
        (fadingState f st 1 0xFFFFFFFF 0).nextReply ≠ .never) ∧
      (fadingState .fadingOut 1 1 0xFFFFFFFF 0).step ≠ 0 ∧ (fadingState .fadingOut 0 1 0xFFFFFFFF 0).step = 0 ∧
      (withBus [0xE0] { fadingState .fadingOut 0 1 0xFFFFFFFF 0 with last := 0, brightness := 0 }).nextReply ≠ .never ∧
      (fadingState .fadingIn 14 1 0xFFFFFFFF 0).step ≠ 15 ∧ (fadingState .fadingIn 15 1 0xFFFFFFFF 0).step = 15 :=
  ⟨fun f st => ⟨by show (1 : Word) ≤ 0 - 0xFFFFFFFF; decide, by show BusReply.ok ≠ .never; decide⟩, by decide, by decide, by decide, by decide, by decide⟩

theorem witness_FadeBlockingArmsAndClosesThePort :
    State.reset.fadeState = .idle ∧ (fadingState .fadingOut 0 1 0 0).fadeState ≠ .idle := by decide

-- before the time; a step that goes on; the step that ends the fade
theorem witness_BlockingStepsInsteadOfTakingCommands :
    (∀ f st now, (blockingState f st now).hung = none ∧ (blockingState f st now).blocking = true ∧
      (∀ ts, (blockingState f st now).turns ≠ .reset :: ts) ∧
        step (blockingState f st now) = .next (step1 (blockingState f st now))) ∧
      ¬ (takeTurn (blockingState .fadingOut 15 1)).delay ≤
        (takeTurn (blockingState .fadingOut 15 1)).now - (takeTurn (blockingState .fadingOut 15 1)).last ∧
      (takeTurn (blockingState .fadingOut 15 2)).delay ≤
        (takeTurn (blockingState .fadingOut 15 2)).now - (takeTurn (blockingState .fadingOut 15 2)).last ∧
      (blockingState .fadingOut 15 2).fadeState ≠ .idle ∧
      (fadeStepF (takeTurn (blockingState .fadingOut 15 2))).1 ≠ .never ∧
      (step1 (blockingState .fadingOut 15 2)).fadeState ≠ .idle ∧
      (fadeStepF (takeTurn (blockingState .fadingIn 15 2))).1 ≠ .never ∧
      (step1 (blockingState .fadingIn 15 2)).fadeState = .idle :=
  ⟨fun f st now => ⟨rfl, rfl, blockingState_no_reset f st now, rfl⟩, by decide, by decide, by decide, by decide,
    by decide, by decide, by decide⟩

/-- 32 times, one unit apart. -/
def fadeTimes : List Word := (List.range 32).map fun k => BitVec.ofNat 32 (k + 1)

theorem spaced_fadeTimes : Spaced 1 0 fadeTimes := by
  unfold fadeTimes
  repeat' (first | exact trivial | refine ⟨by decide, ?_⟩)

/-- The reset state in an environment that presents these times. -/
def fadeTurns : State := { State.reset with turns := fadeTimes.map fun t => Turn.run t [] }

theorem witness_BlockingFadeRunsToItsEnd :
    fadeTurns.fadeState = .idle ∧ fadeTurns.hung = none ∧ AllAnswered fadeTurns ∧ fadeTimes.length = 32 ∧
      Spaced 1 fadeTurns.now fadeTimes ∧ fadeTurns.turns = (fadeTimes.map fun t => Turn.run t []) ++ [] := by
  refine ⟨rfl, rfl, ?_, rfl, spaced_fadeTimes, rfl⟩
  unfold AllAnswered
  decide

theorem witness_PolledFadeRunsToItsEnd :
    (fadingState .fadingOut 15 1 0 0).fadeState = .fadingOut ∧ (fadingState .fadingOut 15 1 0 0).step = 15 ∧
      (fadingState .fadingOut 15 1 0 0).hung = none ∧ AllAnswered (fadingState .fadingOut 15 1 0 0) ∧
      fadeTimes.length = 32 ∧ Spaced (fadingState .fadingOut 15 1 0 0).delay (fadingState .fadingOut 15 1 0 0).last fadeTimes := by
  refine ⟨rfl, rfl, rfl, ?_, rfl, spaced_fadeTimes⟩
  unfold AllAnswered
  decide

-- the dark point, once with both answers `ok`, once with both `err`
theorem witness_TransportErrorsDoNotChangeTheCourse :
    AllAnswered (fadingState .fadingOut 0 1 0 1) ∧ BusReply.never ∉ [BusReply.err, .err] ∧
      (fadingState .fadingOut 0 1 0 1).fadeState ≠ .idle ∧
      exec .fadeTick (fadingState .fadingOut 0 1 0 1) = .next (run1 .fadeTick (fadingState .fadingOut 0 1 0 1)) := by
  refine ⟨?_, by decide, by decide, rfl⟩
  unfold AllAnswered
  decide

theorem witness_HandoffFlushStandsAtTheDarkPoint :
    exec .fadeTick (fadingState .fadingOut 0 1 0 1) = .next (run1 .fadeTick (fadingState .fadingOut 0 1 0 1)) ∧
      (fadingState .fadingOut 0 1 0 1).fadeState = .fadingOut ∧ (fadingState .fadingOut 0 1 0 1).step = 0 ∧
      (fadingState .fadingOut 0 1 0 1).delay ≤
        (fadingState .fadingOut 0 1 0 1).now - (fadingState .fadingOut 0 1 0 1).last ∧
      (fadingState .fadingOut 0 1 0 1).nextReply ≠ .never := ⟨rfl, rfl, rfl, by decide, by decide⟩

theorem witness_OnlyTicksMoveAnArmedFade :
    (fadingState .fadingIn 4 1 0 9).fadeState ≠ .idle ∧ Instr.fadeBlocking 3 ≠ .fadeTick ∧
      exec (.fadeBlocking 3) (fadingState .fadingIn 4 1 0 9) =
        .next (run1 (.fadeBlocking 3) (fadingState .fadingIn 4 1 0 9)) := ⟨by decide, by decide, rfl⟩

/-- Commands between the setting of a level and the next fade step: a digit, a tick before the time. -/
def betweenSteps : List (Word × Instr) := [(5, .setDigit 0 0 1 true), (9, .fadeTick), (9, .fadeStart 3)]

-- a level above 15, and the third transaction of configure; then the last step of the fade
theorem witness_FadeStepOverwritesASetLevel :
    (fadingState .fadingIn 15 10 0 0).fadeState ≠ .idle ∧
      exec (.setBrightness 16) (fadingState .fadingIn 15 10 0 0) =
        .next (run1 (.setBrightness 16) (fadingState .fadingIn 15 10 0 0)) ∧
      exec .configure (fadingState .fadingIn 15 10 0 0) = .next (run1 .configure (fadingState .fadingIn 15 10 0 0)) ∧
      (15 : BitVec 4).toNat = min (16 : Byte).toNat 15 ∧ (fadingState .fadingIn 15 10 0 0).nextReply = .ok ∧
      (withBus [0x21] (fadingState .fadingIn 15 10 0 0)).nextReply = .ok ∧
      (∀ p ∈ betweenSteps, p.2 ≠ .configure ∧ (∀ level, p.2 ≠ .setBrightness level) ∧
        (p.2 = .fadeTick → ¬ (fadingState .fadingIn 15 10 0 0).delay ≤ p.1 - (fadingState .fadingIn 15 10 0 0).last)) ∧
      (fadingState .fadingIn 15 10 0 0).delay ≤ 10 - (fadingState .fadingIn 15 10 0 0).last ∧
      (run1 .fadeTick { issueAt betweenSteps (run1 (.setBrightness 16) (fadingState .fadingIn 15 10 0 0)) with
        now := 10 }).fadeState = .idle := by
  refine ⟨by decide, rfl, rfl, by decide, by decide, by decide, ?_, by decide, by decide⟩
  simp [betweenSteps, fadingState]

theorem witness_FadeMovesOnlyAfterTheDelay :
    (blockingState .fadingOut 15 2).fadeState ≠ .idle ∧ (∀ ts, (blockingState .fadingOut 15 2).turns ≠ .reset :: ts) ∧
      step (blockingState .fadingOut 15 2) = .next (step1 (blockingState .fadingOut 15 2)) ∧
      ((step1 (blockingState .fadingOut 15 2)).fadeState, (step1 (blockingState .fadingOut 15 2)).step,
          (step1 (blockingState .fadingOut 15 2)).last) ≠
        ((blockingState .fadingOut 15 2).fadeState, (blockingState .fadingOut 15 2).step,
          (blockingState .fadingOut 15 2).last) := ⟨by decide, blockingState_no_reset _ _ _, rfl, by decide⟩

-- one unit back, and 2^32 - 1 units back
theorem witness_TimeGoingBackwardsLooksLikeALongTime :
    (0 < 1 ∧ 1 < 2 ^ 32 ∧
        (fadingState .fadingIn 4 1 5 4).now = (fadingState .fadingIn 4 1 5 4).last - BitVec.ofNat 32 1) ∧
      (fadingState .fadingIn 4 1 5 6).now = (fadingState .fadingIn 4 1 5 6).last - BitVec.ofNat 32 (2 ^ 32 - 1) := by
  decide

-- each command that can name a coordinate, at the first invalid value
theorem witness_InvalidCoordinateIsSilent :
    invalidCoordinate (.setDigit 2 0 1 true) = true ∧ invalidCoordinate (.setDigit 1 8 1 true) = true ∧
      invalidCoordinate (.setDigit16 16 1 true) = true ∧ invalidCoordinate (.clearDisplay 2) = true ∧
      invalidCoordinate (.writeString 2 [0x31]) = true := by decide

-- a command that ends, one that hangs, a blocking fade just armed
theorem witness_EveryCommandDrivesOneResult :
    (answering [.ok]).hung = none ∧ (run1 .flush (answering [.ok])).hung = none ∧
      (run1 .flush (answering [.never])).hung ≠ none ∧ (answering []).fadeState = .idle ∧
      exec .flush (answering [.never]) = .next (run1 .flush (answering [.never])) :=
  ⟨rfl, by decide, by decide, rfl, rfl⟩

theorem witness_UnansweredTransactionHangsTheBlock :
    (answering [.never]).nextReply = .never ∧
      exec .configure (answering [.never]) = .next (run1 .configure (answering [.never])) ∧
      (run1 .configure (answering [.never])).hung ≠ none ∧
      (∀ ts, (run1 .configure (answering [.never])).turns ≠ .reset :: ts) :=
  ⟨by decide, rfl, by decide, by simp [run1, exec, execConfigure, finish_frame, configureChip_frame, answering, State.reset]⟩

-- the first transaction never answered; the second, the third; the handoff flush, of a tick and of an internal step
theorem witness_UnansweredCommandsWaitWithTheirEffectsMade :
    (answering [.never]).nextReply = .never ∧ (answering [.ok, .never]).nextReply = .ok ∧
      (withBus [0x21] (answering [.ok, .never])).nextReply = .never ∧
      (withBus [0x21] (answering [.ok, .ok, .never])).nextReply = .ok ∧
      (withBus [0x81] (withBus [0x21] (answering [.ok, .ok, .never]))).nextReply = .never ∧
      (darkTick [.err, .never]).nextReply ≠ .never ∧ (afterDark (darkTick [.err, .never])).nextReply = .never ∧
      (∀ f st rs, (blockingAnswered f st rs).hung = none ∧ (blockingAnswered f st rs).blocking = true ∧
        (∀ ts, (blockingAnswered f st rs).turns ≠ .reset :: ts)) ∧
      (takeTurn (blockingAnswered .fadingOut 15 [.never])).fadeState ≠ .idle ∧
      (takeTurn (blockingAnswered .fadingOut 15 [.never])).delay ≤
        (takeTurn (blockingAnswered .fadingOut 15 [.never])).now -
          (takeTurn (blockingAnswered .fadingOut 15 [.never])).last ∧
      (takeTurn (blockingAnswered .fadingOut 15 [.never])).nextReply = .never ∧
      (takeTurn (blockingAnswered .fadingOut 0 [.ok, .never])).nextReply ≠ .never ∧
      (afterDark (takeTurn (blockingAnswered .fadingOut 0 [.ok, .never]))).nextReply = .never :=
  ⟨by decide, by decide, by decide, by decide, by decide, by decide, by decide,
    fun f st _ => ⟨rfl, rfl, blockingState_no_reset f st 2⟩, by decide, by decide, by decide, by decide, by decide⟩

-- a command that ends, one that arms; an internal step in time, one before the time, one that hangs
theorem witness_ObservationPortShowsThreeElements :
    State.reset.hung = none ∧
      ¬ (State.reset.blocking = true ∧ State.reset.fadeState = .fadingOut ∧ State.reset.step = 15) ∧
      exec .fillAll State.reset = .next (run1 .fillAll State.reset) ∧ (run1 .fillAll State.reset).hung = none ∧
      exec (.fadeBlocking 5) State.reset = .next (run1 (.fadeBlocking 5) State.reset) ∧
      (run1 (.fadeBlocking 5) State.reset).hung = none ∧
      (run1 (.fadeBlocking 5) { State.reset with brightness := 15 }).observe =
        { buf := [], brightness := 15, fadeState := .idle } ∧
      (darkTick [.ok, .ok]).delay ≤ (darkTick [.ok, .ok]).now - (darkTick [.ok, .ok]).last ∧
      (internalStep { darkTick [.ok, .ok] with blocking := true }).hung = none ∧
      ¬ (blockingState .fadingOut 15 2).delay ≤ (blockingState .fadingOut 15 2).now - (blockingState .fadingOut 15 2).last ∧
      (internalStep { darkTick [.ok, .never] with blocking := true }).hung ≠ none := by
  refine ⟨by decide, by decide, rfl, by decide, rfl, by decide, by decide, by decide, by decide, by decide, by decide⟩

theorem witness_OnlyFadeCommandsReadTheTime :
    Instr.configure ≠ .fadeTick ∧ (∀ d, Instr.configure ≠ .fadeStart d) ∧ (∀ d, Instr.configure ≠ .fadeBlocking d) ∧
      exec .configure (answering [.ok, .ok, .ok]) = .next (run1 .configure (answering [.ok, .ok, .ok])) :=
  ⟨by decide, by simp, by simp, rfl⟩

-- for each element a command that changes it
theorem witness_ElementsAreWrittenOnlyByTheirCommands :
    (run1 .fillAll State.reset).buf ≠ State.reset.buf ∧
      (run1 (.setBrightness 1) (answering [.ok])).brightness ≠ (answering [.ok]).brightness ∧
      (run1 (.fadeStart 5) State.reset).fadeState ≠ State.reset.fadeState ∧
      (run1 (.fadeStart 5) State.reset).delay ≠ State.reset.delay ∧
      (run1 (.fadeBlocking 5) State.reset).blocking ≠ State.reset.blocking := by decide

-- a reset amid a blocking fade, with a command partly received; and amid a hang
theorem witness_ResetEventRestoresEveryElement :
    ({ blockingState .fadingOut 3 1 with received := [0xA0000000], turns := [.reset] } : State).turns = [.reset] ∧
      ({ run1 .flush (answering [.never]) with turns := [.reset] } : State).turns = [.reset] ∧
      (run1 .flush (answering [.never])).hung ≠ none := ⟨rfl, rfl, by decide⟩

-- a line accepted, and one whose operand does not fit
theorem witness_AssemblerRefusesOnlyWhatDoesNotFit :
    scanLine (asciiBytes "clearDisplay 1") =
        some (.word (asciiBytes "clearDisplay") :: [.word (asciiBytes "1")]) ∧
      (asciiBytes "clearDisplay", Mnemonic.command .clearDisplay) ∈ mnemonics ∧
      operandsOf [.word (asciiBytes "1")] = some [.number 1] ∧
      commandOf (.command .clearDisplay) [.number 1] = some (.clearDisplay 1) ∧
      scanLine (asciiBytes "clearDisplay 256") =
        some (.word (asciiBytes "clearDisplay") :: [.word (asciiBytes "256")]) ∧
      operandsOf [.word (asciiBytes "256")] = some [.number 256] ∧
      commandOf (.command .clearDisplay) [.number 256] = none := by decide

theorem witness_EveryStepKeepsTheInvariant :
    (blockingState .fadingIn 15 2).Inv ∧
      step (blockingState .fadingIn 15 2) = .next (step1 (blockingState .fadingIn 15 2)) :=
  ⟨⟨Memory.nil_wf, by decide, by decide, by decide⟩, rfl⟩

end Sys2Proof.Machine.Tests
end

section
/-! SUPPORT. The glyph lookup: the dot is never recognized, any other character is looked up in GLYPH, and the
two entries the source fixes come before the instance's table. 00_scope.md R10, 41_device_state.md R101. -/

namespace Sys2Proof.Machine

@[simp] theorem recognized_dotChar (c : Config) : recognized c dotChar = none := if_pos rfl

theorem recognized_of_ne_dotChar (c : Config) {ch : Byte} (h : ch ≠ dotChar) : recognized c ch = glyph c ch :=
  if_neg h

@[simp] theorem glyph_one (c : Config) : glyph c 0x31 = some 0x06 := if_pos rfl

@[simp] theorem glyph_two (c : Config) : glyph c 0x32 = some 0x5B := by
  rw [glyph, if_neg (by decide), if_pos rfl]

/-- Settles O24: the digits '1' and '2' are not the dot, so they are looked up in GLYPH, whose first two entries
no instance can change. -/
theorem glyphsOfOneAndTwoAreFixed : Obligations.GlyphsOfOneAndTwoAreFixed := by
  intro c
  refine ⟨?one, ?two, ?dot⟩
  case one => rw [recognized_of_ne_dotChar c (by decide), glyph_one]
  case two => rw [recognized_of_ne_dotChar c (by decide), glyph_two]
  case dot => exact recognized_dotChar c

end Sys2Proof.Machine
end

section
/-! SUPPORT. What a command does to the state elements, said once: the six courses a command can take, with the
elements each leaves alone. 10_state.md R23 to R29. -/

namespace Sys2Proof.Machine

/-- What the command `i` can make of `s`, by what it writes: the buffer; over the bus, at most the brightness; a fade
step; nothing, for a fade command that is ignored; the fade controller's registers, at an arming. -/
inductive CommandCourse : Instr → State → State → Prop
  | buffer {i : Instr} {s : State} (m : Memory) (hi : isCodec i = true ∨ ∃ d text, i = .writeString d text)
      (hm : s.buf.wf → m.wf) : CommandCourse i s (driveResult .ok (s.setBuf m))
  | bus {i : Instr} {s : State} (o : BusReply × State)
      (hi : i = .flush ∧ o.2.brightness = s.brightness ∨ (∃ level, i = .setBrightness level) ∨ i = .configure)
      (hb : o.2.buf = s.buf) (hf : SameFade s o.2) (hp : SamePorts s o.2) : CommandCourse i s (finish s o)
  | fadeStep {s : State} (hs : s.fadeState ≠ .idle) (he : elapsed s = true) :
      CommandCourse .fadeTick s (finish s (fadeStepF s))
  | ignored {i : Instr} {s : State}
      (hi : i = .fadeTick ∨ s.fadeState ≠ .idle ∧ ((∃ d, i = .fadeStart d) ∨ ∃ d, i = .fadeBlocking d)) :
      CommandCourse i s (driveResult .ok s)
  | armed {d : Word} {s : State} (hs : s.fadeState = .idle) :
      CommandCourse (.fadeStart d) s (driveResult .ok (armFade d s))
  | armedBlocking {d : Word} {s : State} (hs : s.fadeState = .idle) :
      CommandCourse (.fadeBlocking d) s { armFade d s with blocking := true, blockErr := false }

/-- Every command takes one of the courses. -/
theorem commandCourse_afterCommand (i : Instr) (s : State) : CommandCourse i s (afterCommand i s) := by
  cases i with
  | setDigit d p pat dot => exact .buffer _ (.inl rfl) fun h => setDigitF_wf h d p pat dot
  | setDigit16 q pat dot => exact .buffer _ (.inl rfl) fun h => setDigit16F_wf h q pat dot
  | clearDisplay d => exact .buffer _ (.inl rfl) fun h => clearDisplayF_wf h d
  | clearAll => exact .buffer _ (.inl rfl) fun h => fillRows_wf h 0x00
  | fillAll => exact .buffer _ (.inl rfl) fun h => fillRows_wf h 0xFF
  | writeString d text => exact .buffer _ (.inr ⟨d, text, rfl⟩) fun h => writeStringF_wf s.cfg h d text
  | flush => exact .bus _ (.inl ⟨rfl, rfl⟩) rfl (by simp [SameFade]) (by simp [SamePorts])
  | setBrightness level => exact .bus _ (.inr (.inl ⟨level, rfl⟩)) rfl (by simp [SameFade]) (by simp [SamePorts])
  | configure =>
    exact .bus _ (.inr (.inr rfl)) (configureChip_frame s).1 (by simp [SameFade, configureChip_frame])
      (by simp [SamePorts, configureChip_frame])
  | fadeStart d =>
    by_cases hs : s.fadeState = .idle
    · simpa [afterCommand, hs] using CommandCourse.armed hs
    · simpa [afterCommand, hs] using CommandCourse.ignored (.inr ⟨hs, .inl ⟨d, rfl⟩⟩)
  | fadeTick =>
    simp only [afterCommand]
    split_ifs with hs he
    · exact .ignored (.inl rfl)
    · exact .fadeStep hs he
    · exact .ignored (.inl rfl)
  | fadeBlocking d =>
    by_cases hs : s.fadeState = .idle
    · simpa [afterCommand, hs] using CommandCourse.armedBlocking hs
    · simpa [afterCommand, hs] using CommandCourse.ignored (.inr ⟨hs, .inr ⟨d, rfl⟩⟩)

/-- The course of a command that answers a next state. -/
theorem commandCourse_of_exec {i : Instr} {s t : State} (h : exec i s = .next t) : CommandCourse i s t := by
  rw [exec_eq, Host.Outcome.next.injEq] at h
  exact h ▸ commandCourse_afterCommand i s

/-- Only the arming of a blocking fade moves `blocking`. 10_state.md R29. -/
theorem CommandCourse.blocking_eq {i : Instr} {s t : State} (h : CommandCourse i s t)
    (hi : ¬ ((∃ d, i = .fadeBlocking d) ∧ s.fadeState = .idle)) : t.blocking = s.blocking := by
  cases h with
  | buffer | ignored | armed => simp
  | bus o _ _ hf _ =>
    obtain ⟨-, -, -, -, hb, -⟩ := hf
    simp [finish_frame, hb]
  | fadeStep => simp [finish_frame, fadeStepF_frame]
  | @armedBlocking d _ hs => exact absurd ⟨⟨d, rfl⟩, hs⟩ hi

/-- Settles O53: each course writes only the elements of its commands. -/
theorem elementsAreWrittenOnlyByTheirCommands : Obligations.ElementsAreWrittenOnlyByTheirCommands := by
  intro i s t h
  cases commandCourse_of_exec h with
  | buffer m hi => simp [SamePorts, hi]
  | bus o hi hb hf hp =>
    obtain ⟨h1, h2, h3, h4, h5, h6⟩ := hf
    have hbr : o.2.brightness ≠ s.brightness →
        (∃ level, i = .setBrightness level) ∨ i = .configure ∨ i = .fadeTick := by
      rcases hi with ⟨-, hi⟩ | hi | hi
      · exact fun hne => absurd hi hne
      · exact fun _ => .inl hi
      · exact fun _ => .inr (.inl hi)
    simpa [finish_frame, hb, h1, h2, h3, h4, h5, h6, SamePorts] using ⟨hbr, hp⟩
  | fadeStep => simp [finish_frame, fadeStepF_frame, SamePorts]
  | ignored => simp [SamePorts]
  | armed hs => simp [SamePorts, hs]
  | armedBlocking hs => simp [SamePorts, hs]

end Sys2Proof.Machine
end

section
/-! SUPPORT. The invariant of the block's state: it holds after reset and every step keeps it. 10_state.md R34, R35. -/

namespace Sys2Proof.Machine

/-- A fade step that waits for an answer has not left its state. 42_fade_controller.md R123, R124. -/
theorem fadeStepF_fadeState_of_never {s : State} (h : (fadeStepF s).1 = .never) :
    (fadeStepF s).2.fadeState = s.fadeState := by
  rcases fadeStepF_cases s with k | k | k | k | k
  case inl => rw [k.2]; simp
  case inr.inl =>
    obtain ⟨hn, hf, -, heq⟩ := k
    rw [heq] at h ⊢
    rcases handoff_cases s.nextReply (applyBrightness s.step (markTransition s)).2 with ⟨-, h'⟩ | ⟨hn', h'⟩
    · rw [h']; simp
    · rw [h'] at h
      revert h hn hn'
      cases s.nextReply <;> cases (applyBrightness s.step (markTransition s)).2.nextReply <;> simp [BusReply.both]
  all_goals
    obtain ⟨hn, -, -, heq⟩ := k
    rw [heq] at h
    exact absurd h hn

/-- The environment's turn is outside the invariant. -/
theorem takeTurn_inv {s : State} (h : s.Inv) : (takeTurn s).Inv :=
  State.Inv_of_same h (by simp) (by simp) (by simp) (by simp) (by simp)

/-- A reset event leads to a state that meets the invariant, from any state. 70_reset_and_hazards.md R160. -/
theorem resetBlock_inv (s : State) : (resetBlock s).Inv where
  bufWf := Memory.nil_wf
  blockingFades := by simp
  errWhileBlocking := by simp
  receivedPart := by simp

/-- The end of an internal step: `blocking` and its error are cleared exactly with the last transition to Idle.
42_fade_controller.md R126, R127. -/
theorem endInternalStep_inv {s : State} (e : Bool) (hw : s.buf.wf) (hb : s.blocking = true)
    (hr : s.received ≠ [] → decode s.received = .incomplete) : (endInternalStep e s).Inv := by
  unfold endInternalStep
  split
  case isTrue hs => exact ⟨hw, by simp, by simp, hr⟩
  case isFalse hs => exact ⟨hw, fun _ => hs, by simp [hb], hr⟩

/-- An internal step of a running blocking fade keeps the invariant. -/
theorem internalStep_inv {s : State} (h : s.Inv) (hb : s.blocking = true) : (internalStep s).Inv := by
  obtain ⟨fbuf, -, fblocking, fblockErr, -, freceived, -⟩ := fadeStepF_frame s
  rcases internalStep_cases s with ⟨-, heq⟩ | ⟨-, hn, heq⟩ | ⟨-, -, heq⟩
  · rwa [heq]
  · rw [heq]
    exact State.Inv_of_same h (by simp [fbuf]) (by simp [fblocking]) (by simp [fadeStepF_fadeState_of_never hn])
      (by simp [fblockErr]) (by simp [freceived])
  · rw [heq]
    exact endInternalStep_inv _ (by rw [fbuf]; exact h.bufWf) (by rw [fblocking, hb])
      (by rw [freceived]; exact h.receivedPart)

/-- With no blocking fade running, the invariant is about the buffer, `blockErr` and the received words only. -/
theorem State.Inv_of_notBlocking {s t : State} (h : s.Inv) (hb : s.blocking = false) (hw : t.buf.wf)
    (h1 : t.blocking = s.blocking) (h2 : t.blockErr = s.blockErr) (h3 : t.received = s.received) : t.Inv where
  bufWf := hw
  blockingFades := by simp [h1, hb]
  errWhileBlocking := by rw [h1, h2]; exact h.errWhileBlocking
  receivedPart := by rw [h3]; exact h.receivedPart

/-- A command of a ready block keeps the invariant. -/
theorem CommandCourse.keeps_inv {i : Instr} {s t : State} (hc : CommandCourse i s t) (h : s.Inv)
    (hb : s.blocking = false) : t.Inv := by
  have hw := h.bufWf
  cases hc with
  | buffer m _ hm => exact State.Inv_of_notBlocking h hb (hm hw) rfl rfl rfl
  | bus o _ hbuf hf hp =>
    obtain ⟨-, -, -, -, h1, h2⟩ := hf
    exact State.Inv_of_notBlocking h hb (by simpa only [finish_frame, hbuf] using hw) (by simp [finish_frame, h1])
      (by simp [finish_frame, h2]) (by simp [finish_frame, hp.1])
  | fadeStep =>
    exact State.Inv_of_notBlocking h hb (by simpa only [finish_frame, fadeStepF_frame] using hw)
      (by simp [finish_frame, fadeStepF_frame]) (by simp [finish_frame, fadeStepF_frame])
      (by simp [finish_frame, fadeStepF_frame])
  | ignored => exact State.Inv_of_notBlocking h hb hw rfl rfl rfl
  | armed => exact State.Inv_of_notBlocking h hb hw rfl rfl rfl
  | armedBlocking => exact ⟨hw, by simp, by simp, h.receivedPart⟩

/-- Receiving the words of a command not yet whole keeps the invariant. 30_encoding.md R64. -/
theorem receiveWords_inv {s : State} (h : s.Inv) (hd : decode s.stream = .incomplete) : (receiveWords s).Inv where
  bufWf := h.bufWf
  blockingFades := h.blockingFades
  errWhileBlocking := h.errWhileBlocking
  receivedPart := fun _ => hd

/-- Taking a whole command leaves no word received. 30_encoding.md R64. -/
theorem takeWords_inv {s : State} (h : s.Inv) (n : Nat) : (takeWords n s).Inv where
  bufWf := h.bufWf
  blockingFades := h.blockingFades
  errWhileBlocking := h.errWhileBlocking
  receivedPart := by simp

/-- Settles O56: the state after reset is what a reset event makes of itself. -/
theorem resetStateMeetsTheInvariant : Obligations.ResetStateMeetsTheInvariant :=
  resetBlock_inv State.reset

/-- Settles O57: each of the six courses of a step keeps the invariant. -/
theorem everyStepKeepsTheInvariant : Obligations.EveryStepKeepsTheInvariant := by
  intro s t h hstep
  have ht : (takeTurn s).Inv := takeTurn_inv h
  rcases step_cases hstep with ⟨ts, -, rfl⟩ | ⟨-, rfl⟩ | ⟨-, hb, rfl⟩ | ⟨-, -, hd, rfl⟩ | ⟨-, -, why, n, -, rfl⟩ |
    ⟨-, hb, i, n, -, rfl⟩
  · exact resetBlock_inv _
  · exact ht
  · exact internalStep_inv ht hb
  · exact receiveWords_inv ht hd
  · exact State.Inv_of_same (takeWords_inv ht n) rfl rfl rfl rfl rfl
  · exact (commandCourse_afterCommand i _).keeps_inv (takeWords_inv ht n) hb

end Sys2Proof.Machine
end

section
/-! SUPPORT. The ports: the environment's turn, the result port and the observation port. 10_state.md R30 to R34. -/

namespace Sys2Proof.Machine

/-- Settles O8: the turn is the head of `turns`, or a free time value. -/
theorem turnSetsTheTimeAndOffersWords : Obligations.TurnSetsTheTimeAndOffersWords := by
  intro s
  constructor
  · intro t ws ts h
    simp only [takeTurn, h, deliver]
  · intro h
    simp only [takeTurn, h, deliver, List.append_nil]

/-- Settles O54: the values stand in the definition; an unlisted row reads as 0x00. -/
theorem resetStateHasTheResetValues : Obligations.ResetStateHasTheResetValues :=
  ⟨Memory.read_nil, rfl, rfl, rfl, rfl, rfl, rfl, rfl⟩

/-- Settles O47: a command ends with its one result, after transactions only; an arming drives nothing, a hang
transactions only. -/
theorem everyCommandDrivesOneResult : Obligations.EveryCommandDrivesOneResult := by
  intro i s t hs h
  rw [exec_eq, Host.Outcome.next.injEq] at h
  subst h
  rcases afterCommand_cases i s with ⟨ho, hh, ha, -⟩ | ⟨o, evs, hb, heq, hh, hi⟩ | ⟨ho, hh, hd, hf⟩
  · rw [newOutputs_of_append ho, hh, hs]
    exact ⟨fun _ => ⟨.ok, rfl, rfl⟩, by simp [ha]⟩
  · have ha : ¬ ((∃ d, i = .fadeBlocking d) ∧ s.fadeState = .idle) := by
      rintro ⟨⟨d, rfl⟩, -⟩
      simp at hi
    rw [heq]
    rcases finish_outputs hb with ⟨-, hh', hn⟩ | ⟨-, hh', hn⟩
    · rw [hh', hh, hs, hn]
      refine ⟨fun _ => ⟨_, List.getLast?_concat, ?_⟩, by simp [ha]⟩
      rw [List.filter_append, hb.noResult]
      rfl
    · rw [hh', hn]
      exact ⟨by simp, fun _ => hb.noResult⟩
  · rw [newOutputs_of_append (evs := []) (by simpa using ho)]
    exact ⟨fun hc => absurd ⟨hd, hf⟩ hc.2, fun _ => rfl⟩

/-- A command that ends when no blocking fade runs shows the three elements. 10_state.md R33. -/
theorem CommandCourse.observe_eq {i : Instr} {s t : State} (hc : CommandCourse i s t) (hb : s.blocking = false)
    (ht : t.hung = none) (hi : ¬ ((∃ d, i = .fadeBlocking d) ∧ s.fadeState = .idle)) :
    t.observe = { buf := t.buf, brightness := t.brightness, fadeState := t.fadeState } :=
  observe_live ht (by simp [State.justArmed, hc.blocking_eq hi, hb])

/-- Whether an internal step made in time hangs is whether its fade step is answered. 60_exceptions.md R147. -/
theorem internalStep_hung_eq_none {s : State} (hs : s.hung = none) :
    (internalStep s).hung = none ↔ ¬ (elapsed s = true ∧ (fadeStepF s).1 = .never) := by
  rcases internalStep_cases s with ⟨he, heq⟩ | ⟨he, hn, heq⟩ | ⟨he, hn, heq⟩
  · simp [heq, he, hs]
  · simp [heq, he, hn]
  · have hf : (fadeStepF s).2.hung = none := by simp [fadeStepF_frame, hs]
    rw [heq, endInternalStep]
    split <;> simp [he, hn, hf]

/-- Settles O51: the port is latched by a hang and shows Idle for an armed blocking fade; else it is live. -/
theorem observationPortShowsThreeElements : Obligations.ObservationPortShowsThreeElements := by
  intro s hs
  have he : elapsed s = true ↔ s.delay ≤ s.now - s.last := by simp [elapsed]
  refine ⟨fun ha => observe_live hs (justArmed_eq_false.mpr ha), fun i t h hb ht => ⟨fun hi => ?_, ?_⟩, ?_⟩
  · exact (commandCourse_of_exec h).observe_eq hb ht hi
  · rintro ⟨⟨d, rfl⟩, hf⟩
    rw [exec_eq, Host.Outcome.next.injEq, afterCommand, if_pos hf] at h
    exact h ▸ observe_armed d hf
  · rw [← he, ne_eq, internalStep_hung_eq_none hs]
    rcases internalStep_observe s with ⟨hel, hn, hobs⟩ | ⟨hno, hobs⟩
    · exact ⟨fun _ _ => hobs hs, fun hc => absurd hel hc, fun hc => absurd (fun k => hn k.2) hc⟩
    · exact ⟨fun hel ha => absurd ⟨hel, fun hn => ha ⟨hel, hn⟩⟩ hno, fun _ => hobs, fun _ => hobs⟩

end Sys2Proof.Machine
end

section
/-! SUPPORT. The chip's RAM: what a command and a step of the fade leave known of it. 20_memory.md R57,
70_reset_and_hazards.md R170. -/

namespace Sys2Proof.Machine

/-! ## What one event leaves known -/

theorem chipRamAfter_ramWrite (known : Option (List Byte)) (addr : BitVec 7) (m : Memory) (r : BusReply) :
    chipRamAfter known (.bus addr (ramBase :: rowsOf m) r) = if r = .ok then some (rowsOf m) else none := by
  simp [chipRamAfter, rowsOf]

/-- The buffer flush decides what is known of the RAM, by its answer alone. 20_memory.md R57. -/
theorem chipRam_flushBuffer (s : State) :
    chipRam (flushBuffer s).2.outputs = if s.nextReply = .ok then some (rowsOf s.buf) else none := by
  rw [flushBuffer_outputs, memRead_eq_rowsOf, chipRam_append]
  exact chipRamAfter_ramWrite _ s.cfg.i2cAddr s.buf _

/-! ## Moves without a transaction -/

/-- Between `s` and `t` at most one write of the result port is driven, and no transaction. -/
def AtMostAResult (s t : State) : Prop :=
  t.outputs = s.outputs ∨ ∃ st f, t.outputs = s.outputs ++ [.result st f]

/-- The result port tells nothing of the RAM. -/
theorem AtMostAResult.chipRam_eq {s t : State} (h : AtMostAResult s t) : chipRam t.outputs = chipRam s.outputs := by
  rcases h with h | ⟨st, f, h⟩
  · rw [h]
  · rw [h, chipRam_append]
    rfl

/-- The end of a command over the bus sends nothing more. -/
theorem atMostAResult_finish (before : State) (o : BusReply × State) : AtMostAResult o.2 (finish before o) := by
  rcases finish_cases before o with ⟨-, h⟩ | ⟨-, h⟩ | ⟨-, h⟩ <;> rw [h]
  · exact .inr ⟨_, _, rfl⟩
  · exact .inr ⟨_, _, rfl⟩
  · exact .inl rfl

/-- The end of an internal step sends nothing more. -/
theorem atMostAResult_endInternalStep (e : Bool) (s : State) : AtMostAResult s (endInternalStep e s) := by
  unfold endInternalStep
  split
  · exact .inr ⟨_, _, rfl⟩
  · exact .inl rfl

/-! ## Moves without a RAM write -/

/-- Between `s` and `t` the block drives no payload of 17 bytes, the length of a RAM write. 30_encoding.md R71. -/
def NoRamWrite (s t : State) : Prop :=
  ∃ evs, t.outputs = s.outputs ++ evs ∧ ∀ bytes ∈ busBytes evs, bytes.length ≠ 17

theorem NoRamWrite.trans {s t u : State} (h : NoRamWrite s t) (k : NoRamWrite t u) : NoRamWrite s u := by
  obtain ⟨es, he, hes⟩ := h
  obtain ⟨fs, hf, hfs⟩ := k
  refine ⟨es ++ fs, by rw [hf, he, List.append_assoc], fun bytes hb => ?_⟩
  rw [busBytes_append, List.mem_append] at hb
  exact hb.elim (hes bytes) (hfs bytes)

theorem AtMostAResult.noRamWrite {s t : State} (h : AtMostAResult s t) : NoRamWrite s t := by
  rcases h with h | ⟨st, f, h⟩
  · exact ⟨[], by simp [h], by simp [busBytes]⟩
  · exact ⟨_, h, by simp [busBytes]⟩

theorem noRamWrite_applyBrightness (lv : BitVec 4) (s : State) : NoRamWrite s (applyBrightness lv s).2 :=
  ⟨_, applyBrightness_outputs lv s, by simp [busBytes, Payload.bytes]⟩

/-- configure sends payloads of one byte. 41_device_state.md R106. -/
theorem noRamWrite_configureChip (s : State) : NoRamWrite s (configureChip s).2 := by
  have osc : NoRamWrite s (busWrite .oscillatorEnable s).2 :=
    ⟨_, afterBus_outputs _ s, by simp [busBytes, Payload.bytes]⟩
  have disp (u : State) : NoRamWrite u (busWrite .displayEnable u).2 :=
    ⟨_, afterBus_outputs _ u, by simp [busBytes, Payload.bytes]⟩
  rcases configureChip_cases s with ⟨-, h⟩ | ⟨-, -, h⟩ | ⟨-, -, h⟩ <;> rw [h]
  · exact osc
  · exact osc.trans (disp _)
  · exact (osc.trans (disp _)).trans (noRamWrite_applyBrightness 15 _)

/-- No command but flush and a tick can write the RAM. -/
theorem noRamWrite_afterCommand {i : Instr} (hf : i ≠ .flush) (ht : i ≠ .fadeTick) (s : State) :
    NoRamWrite s (afterCommand i s) := by
  rcases afterCommand_cases i s with ⟨h, -⟩ | ⟨-, -, -, -, -, hi⟩ | ⟨h, -⟩
  · exact AtMostAResult.noRamWrite (.inr ⟨_, _, h⟩)
  · rcases hi with hi | ⟨level, rfl⟩ | rfl | ⟨hi, -⟩
    · exact absurd hi hf
    · exact (noRamWrite_applyBrightness _ s).trans (atMostAResult_finish s _).noRamWrite
    · exact (noRamWrite_configureChip s).trans (atMostAResult_finish s _).noRamWrite
    · exact absurd hi ht
  · exact AtMostAResult.noRamWrite (.inl h)

/-- What is known of the RAM outlives transactions all answered `ok`, and no other. 93_implementation_defined.md I7. -/
theorem NoRamWrite.chipRam_eq {s t : State} (h : NoRamWrite s t) :
    ((∀ r ∈ busRepliesOf (newOutputs s t), r = .ok) → chipRam t.outputs = chipRam s.outputs) ∧
      ((∃ r ∈ busRepliesOf (newOutputs s t), r ≠ .ok) → chipRam t.outputs = none) := by
  obtain ⟨evs, ho, hlen⟩ := h
  rw [newOutputs_of_append ho, ho, chipRam_append]
  exact chipRamAfter_noRamWrite _ evs hlen

/-! ## The moves of a fade -/

/-- The fade stands at its dark point, its time has come and the brightness transaction will be answered: the step
made now goes on to the handoff flush. 42_fade_controller.md R124. -/
def AtDarkPoint (u : State) : Prop :=
  u.fadeState = .fadingOut ∧ u.step = 0 ∧ u.delay ≤ u.now - u.last ∧ u.nextReply ≠ .never

/-- The state after a transaction is the one the statements name. -/
theorem busWrite_snd (p : Payload) (s : State) : (busWrite p s).2 = withBus (p.bytes s.cfg) s := by
  simp [busWrite, withBus]

theorem encodeBrightness_zero (c : Config) : encodeBrightness c 0 = c.brightBase := by
  simp [encodeBrightness]

/-- The state at the handoff flush, after the transaction of brightness 0. -/
theorem applyBrightness_zero_markTransition (u : State) :
    (applyBrightness 0 (markTransition u)).2 = withBus [u.cfg.brightBase] { u with last := u.now, brightness := 0 } := by
  rw [applyBrightness, busWrite_snd, Payload.bytes, encodeBrightness_zero]
  rfl

theorem handoff_outputs (r : BusReply) (s : State) : (handoff r s).2.outputs = (flushBuffer s).2.outputs := by
  rcases handoff_cases r s with ⟨-, h⟩ | ⟨-, h⟩ <;> rw [h]

/-- The step at the dark point ends with the handoff flush. 42_fade_controller.md R124. -/
theorem AtDarkPoint.fadeStepF_eq {u : State} (h : AtDarkPoint u) :
    fadeStepF u =
      handoff u.nextReply (withBus [u.cfg.brightBase] { u with last := u.now, brightness := 0 }) := by
  obtain ⟨hf, hs, -, hn⟩ := h
  rw [← applyBrightness_zero_markTransition]
  rcases fadeStepF_cases u with ⟨hn', -⟩ | ⟨-, -, -, heq⟩ | ⟨-, -, hs', -⟩ | ⟨-, hf', -⟩ | ⟨-, hf', -⟩
  · exact absurd hn' hn
  · rw [heq, hs]
  · exact absurd hs hs'
  · exact absurd hf hf'
  · exact absurd hf hf'

/-- The chip's RAM after the step at the dark point, by the answer to its flush. -/
theorem AtDarkPoint.chipRam_fadeStepF {u : State} (h : AtDarkPoint u) :
    chipRam (fadeStepF u).2.outputs =
      if (withBus [u.cfg.brightBase] { u with last := u.now, brightness := 0 }).nextReply = .ok
      then some (rowsOf u.buf) else none := by
  rw [h.fadeStepF_eq, handoff_outputs, chipRam_flushBuffer]
  rfl

/-- A fade step made in time away from the dark point sends its brightness only. 42_fade_controller.md R123. -/
theorem noRamWrite_fadeStepF {u : State} (he : elapsed u = true) (hd : ¬ AtDarkPoint u) :
    NoRamWrite u (fadeStepF u).2 := by
  obtain ⟨evs, hpart, hbytes⟩ := fadeStepF_payloads u
  refine ⟨evs, hpart.outputs, ?_⟩
  have hno : ¬ (u.fadeState = .fadingOut ∧ u.step = 0 ∧ u.nextReply ≠ .never) :=
    fun ⟨hf, hs, hn⟩ => hd ⟨hf, hs, of_decide_eq_true he, hn⟩
  rw [hbytes, if_neg hno]
  simp [Payload.bytes]

/-- What a tick or an internal step makes of `u` on the record: a fade step made in time, or no transaction, and then
not at the dark point. -/
def FadeCourse (u t : State) : Prop :=
  (elapsed u = true ∧ AtMostAResult (fadeStepF u).2 t) ∨ (¬ AtDarkPoint u ∧ AtMostAResult u t)

theorem not_atDarkPoint_of_not_elapsed {u : State} (h : ¬ elapsed u = true) : ¬ AtDarkPoint u :=
  fun ⟨_, _, he, _⟩ => h (decide_eq_true he)

theorem fadeCourse_tick (u : State) : FadeCourse u (afterCommand .fadeTick u) := by
  simp only [afterCommand]
  split_ifs with hi he
  · exact .inr ⟨fun hd => by simp [hd.1] at hi, .inr ⟨_, _, rfl⟩⟩
  · exact .inl ⟨he, atMostAResult_finish u _⟩
  · exact .inr ⟨not_atDarkPoint_of_not_elapsed he, .inr ⟨_, _, rfl⟩⟩

theorem fadeCourse_internalStep (u : State) : FadeCourse u (internalStep u) := by
  rcases internalStep_cases u with ⟨he, h⟩ | ⟨he, -, h⟩ | ⟨he, -, h⟩ <;> rw [h]
  · exact .inr ⟨not_atDarkPoint_of_not_elapsed (by simp [he]), .inl rfl⟩
  · exact .inl ⟨he, .inl rfl⟩
  · exact .inl ⟨he, atMostAResult_endInternalStep _ _⟩

/-- At the dark point the move's flush decides what is known of the RAM. 42_fade_controller.md R124. -/
theorem FadeCourse.chipRam_of_atDarkPoint {u t : State} (h : FadeCourse u t) (hd : AtDarkPoint u) :
    chipRam t.outputs =
      if (withBus [u.cfg.brightBase] { u with last := u.now, brightness := 0 }).nextReply = .ok
      then some (rowsOf u.buf) else none := by
  rcases h with ⟨-, h⟩ | ⟨hno, -⟩
  · rw [h.chipRam_eq, hd.chipRam_fadeStepF]
  · exact absurd hd hno

/-- Away from the dark point a move writes no RAM. -/
theorem FadeCourse.noRamWrite {u t : State} (h : FadeCourse u t) (hd : ¬ AtDarkPoint u) : NoRamWrite u t := by
  rcases h with ⟨he, h⟩ | ⟨-, h⟩
  · exact (noRamWrite_fadeStepF he hd).trans h.noRamWrite
  · exact h.noRamWrite

/-- Settles O31: only the two flushes send a payload of a RAM write's length, and a flush's answer decides what is
known; every other move drives shorter payloads. -/
theorem chipRamFollowsOnlyTheFlush : Obligations.ChipRamFollowsOnlyTheFlush := by
  refine ⟨fun i s t h => ?command, fun s u t h => ?fade⟩
  case command =>
    rw [exec_eq, Host.Outcome.next.injEq] at h
    subst h
    have hflush : i = .flush → chipRam (afterCommand i s).outputs =
        if s.nextReply = .ok then some (rowsOf s.buf) else none := by
      rintro rfl
      exact (atMostAResult_finish s _).chipRam_eq.trans (chipRam_flushBuffer s)
    exact ⟨fun hi hr => (hflush hi).trans (if_pos hr), fun hi hr => (hflush hi).trans (if_neg hr),
      fun hf ht => (noRamWrite_afterCommand hf ht s).chipRam_eq⟩
  case fade =>
    obtain ⟨hc, ho, hb⟩ : FadeCourse u t ∧ u.outputs = s.outputs ∧ u.buf = s.buf := by
      rcases h with ⟨rfl, h⟩ | ⟨hh, hbl, hr, rfl, h⟩
      · rw [exec_eq, Host.Outcome.next.injEq] at h
        exact ⟨h ▸ fadeCourse_tick s, rfl, rfl⟩
      · rw [step_of_run hr, runBlock_blocking (by simpa using hh) (by simpa using hbl), Host.Outcome.next.injEq] at h
        exact ⟨h ▸ fadeCourse_internalStep _, takeTurn_outputs s, takeTurn_buf s⟩
    refine ⟨?dark, fun hd => ?other⟩
    case dark =>
      rintro hd a rfl
      have hram := hc.chipRam_of_atDarkPoint hd
      rw [hb] at hram
      exact ⟨fun ha => hram.trans (if_pos ha), fun ha => hram.trans (if_neg ha)⟩
    case other =>
      have key := (hc.noRamWrite hd).chipRam_eq
      rwa [newOutputs, ho] at key

end Sys2Proof.Machine
end

section
/-! SUPPORT. The buffer's rows and lamps: the order of a read, and the address decoder with its inverse.
20_memory.md R42, R43, R46. -/

namespace Sys2Proof.Machine

/-- Row `k` of a read is the `k`-th after its first. 20_memory.md R42. -/
theorem memRead_getD (m : Memory) (r : BitVec 4) {n k : Nat} (hk : k < n) :
    (memRead m r n).getD k 0 = m.read (BitVec.ofNat 4 (r.toNat + k)) := by
  simp [memRead, hk, BitVec.ofNat_add]

/-- Settles O13, by the law of reading after writing. -/
theorem rowWriteChangesThatRowOnly : Obligations.RowWriteChangesThatRowOnly := by
  intro m r v hm
  refine ⟨Memory.write_wf hm r v, ?same, fun q hq => ?other, fun n k hk _ => ?order⟩
  case same => rw [Memory.read_write hm, if_pos rfl]
  case other => rw [Memory.read_write hm, if_neg hq]
  case order => exact ⟨memRead_length m r n, memRead_getD m r hk⟩

theorem mask_toNat (p : BitVec 3) : (mask p).toNat = 2 ^ p.toNat := by
  revert p; decide

/-- The address decoder and its inverse. 20_memory.md R43, R46. -/
theorem lampOf_eq_iff {r : BitVec 4} {k p : BitVec 3} {d : BitVec 1} {s : BitVec 3} :
    lampOf r k = (d, p, s) ↔ row d s = r ∧ p = k := by
  have hrow := row_lampOf r k
  constructor
  · intro h
    rw [h] at hrow
    exact ⟨hrow, congrArg (·.2.1) h.symm⟩
  · rintro ⟨rfl, rfl⟩
    obtain ⟨hd, hs⟩ := row_inj.mp hrow
    exact Prod.ext hd (Prod.ext rfl hs)

/-- Settles O12: `lampOf` inverts `row`, and a row's number is `d * 8 + s` with `s` below 8. -/
theorem everyBufferBitIsOneLamp : Obligations.EveryBufferBitIsOneLamp := by
  intro r k
  have hr := row_toNat (lampOf r k).1 (lampOf r k).2.2
  have hs := (lampOf r k).2.2.isLt
  rw [row_lampOf] at hr
  exact ⟨by omega, rfl, by omega, fun d p s => ⟨row_toNat d s, mask_toNat p, by rw [← lampOf_eq_iff, eq_comm]⟩⟩

end Sys2Proof.Machine
end

section
/-! SUPPORT. The step of a ready block. 20_memory.md R54, 30_encoding.md R64. -/

namespace Sys2Proof.Machine

/-- Settles O7: a step without a reset is the block's part, and a ready block takes the decoded command. -/
theorem stepRunsTheDecodedCommand : Obligations.StepRunsTheDecodedCommand := by
  intro s i n hh hb hr hd
  have hd' : decode (takeTurn s).stream = .command i n := hd
  rw [step_of_run hr, runBlock_ready (by simpa using hh) (by simpa using hb), takeCommand, hd']
  rfl

end Sys2Proof.Machine
end

section
/-! SUPPORT. The decoder and the encoder row by row: which words a row of the opcode table accepts and which command
it reads from them. 30_encoding.md R61 to R70. -/

namespace Sys2Proof

/-! ## Rows and opcodes -/

theorem Op.code_injective : Function.Injective Op.code := by
  intro x y h
  have hx := opOfCode_code x
  rw [h, opOfCode_code] at hx
  exact (Option.some.inj hx).symm

theorem Op.accepts_iff {x : Op} {w : Word} : x.accepts w = true ↔ w &&& x.mask = x.matchWord := by
  simp [Op.accepts]

/-- The reserved opcodes are those of no row. 30_encoding.md R67. -/
theorem opOfCode_eq_none_iff {c : BitVec 4} : opOfCode c = none ↔ c = 0x0 ∨ c = 0xD ∨ c = 0xE ∨ c = 0xF := by
  revert c; decide

theorem opOfCode_eq_some_iff {c : BitVec 4} {x : Op} : opOfCode c = some x ↔ c = x.code := by
  revert c; cases x <;> decide

/-! ## Lengths by opcode -/

theorem commandLength_of_text {w : Word} (h : fieldOp w = 0x6) :
    commandLength w = 1 + textWordCount (fieldC w).toNat := if_pos h

theorem commandLength_of_delay {w : Word} (h : fieldOp w = 0xA ∨ fieldOp w = 0xC) : commandLength w = 2 := by
  have h6 : fieldOp w ≠ 0x6 := by rcases h with h | h <;> rw [h] <;> decide
  rw [commandLength, if_neg h6, if_pos h]

theorem commandLength_of_other {w : Word} (h6 : fieldOp w ≠ 0x6) (hA : fieldOp w ≠ 0xA) (hC : fieldOp w ≠ 0xC) :
    commandLength w = 1 := by
  rw [commandLength, if_neg h6, if_neg (not_or.mpr ⟨hA, hC⟩)]

/-! ## A whole command decodes by its row -/

theorem decode_reservedOpcode {w : Word} {ds : List Word} (h : opOfCode (fieldOp w) = none)
    (hl : commandLength w ≤ ds.length + 1) : decode (w :: ds) = .illegal .reservedOpcode (commandLength w) := by
  simp only [decode, if_neg (Nat.not_lt.mpr hl), decodeWord, h]

theorem decode_reservedBits {w : Word} {ds : List Word} {x : Op} (hc : fieldOp w = x.code) (h : ¬ x.accepts w = true)
    (hl : commandLength w ≤ ds.length + 1) : decode (w :: ds) = .illegal .reservedBits (commandLength w) := by
  simp only [decode, if_neg (Nat.not_lt.mpr hl), decodeWord, hc, opOfCode_code, if_neg h]

/-- A whole command is one of three: of a reserved opcode, with a reserved bit set, or one its row accepts.
30_encoding.md R70. -/
theorem decode_cases (w : Word) {ds : List Word} (hl : commandLength w ≤ ds.length + 1) :
    (opOfCode (fieldOp w) = none ∧ decode (w :: ds) = .illegal .reservedOpcode (commandLength w)) ∨
      ∃ x : Op, fieldOp w = x.code ∧
        ((x.accepts w = true ∧
            decode (w :: ds) = .command (x.operands w (ds.take (commandLength w - 1))) (commandLength w)) ∨
          (¬ x.accepts w = true ∧ decode (w :: ds) = .illegal .reservedBits (commandLength w))) := by
  cases hx : opOfCode (fieldOp w) with
  | none => exact .inl ⟨rfl, decode_reservedOpcode hx hl⟩
  | some x =>
    have hc := opOfCode_eq_some_iff.mp hx
    by_cases ha : x.accepts w = true
    · exact .inr ⟨x, hc, .inl ⟨ha, decode_accepts ha hl⟩⟩
    · exact .inr ⟨x, hc, .inr ⟨ha, decode_reservedBits hc ha hl⟩⟩

/-- Where a decoded command comes from: a row that accepts the first word, and all the words counted. -/
theorem exists_accepts_of_decode {ws : List Word} {i : Instr} {n : Nat} (h : decode ws = .command i n) :
    ∃ (w : Word) (ds : List Word) (x : Op), ws = w :: ds ∧ n = commandLength w ∧ n ≤ ds.length + 1 ∧
      x.accepts w = true ∧ i = x.operands w (ds.take (n - 1)) := by
  obtain ⟨w, ds, rfl, rfl, hl⟩ := decode_length (.inl ⟨i, h⟩)
  rcases decode_cases w hl with ⟨-, hd⟩ | ⟨x, -, ⟨ha, hd⟩ | ⟨-, hd⟩⟩ <;> rw [hd] at h
  · cases h
  · exact ⟨w, ds, x, rfl, rfl, hl, ha, by injection h with h; exact h.symm⟩
  · cases h

/-! ## The row of an instruction -/

/-- The row of the opcode table that an instruction belongs to. 30_encoding.md R62. -/
def Instr.op : Instr → Op
  | .setDigit _ _ _ _ => .setDigit
  | .setDigit16 _ _ _ => .setDigit16
  | .clearDisplay _ => .clearDisplay
  | .clearAll => .clearAll
  | .fillAll => .fillAll
  | .writeString _ _ => .writeString
  | .flush => .flush
  | .setBrightness _ => .setBrightness
  | .configure => .configure
  | .fadeStart _ => .fadeStart
  | .fadeTick => .fadeTick
  | .fadeBlocking _ => .fadeBlocking

@[simp] theorem op_operands (x : Op) (w : Word) (ds : List Word) : (x.operands w ds).op = x := by
  cases x <;> rfl

/-- The encoding carries the opcode of the instruction's row. 30_encoding.md R62. -/
theorem fieldOp_of_encode {i : Instr} {w : Word} {ds : List Word} (h : encode i = w :: ds) :
    fieldOp w = i.op.code := by
  cases i <;> cases h <;> exact fieldOp_commandWord ..

/-- What the encoding of every instruction begins with, and how many words it has. 30_encoding.md R62, R64. -/
theorem encodesItsRow (i : Instr) : Laws.EncodesItsRow.Statement i := by
  cases i with
  | setDigit display position pattern dot => exact Laws.EncodesItsRow.setDigit display position pattern dot
  | setDigit16 position16 pattern dot => exact Laws.EncodesItsRow.setDigit16 position16 pattern dot
  | clearDisplay display => exact Laws.EncodesItsRow.clearDisplay display
  | clearAll => exact Laws.EncodesItsRow.clearAll
  | fillAll => exact Laws.EncodesItsRow.fillAll
  | writeString display text => exact Laws.EncodesItsRow.writeString display text
  | flush => exact Laws.EncodesItsRow.flush
  | setBrightness level => exact Laws.EncodesItsRow.setBrightness level
  | configure => exact Laws.EncodesItsRow.configure
  | fadeStart delay => exact Laws.EncodesItsRow.fadeStart delay
  | fadeTick => exact Laws.EncodesItsRow.fadeTick
  | fadeBlocking delay => exact Laws.EncodesItsRow.fadeBlocking delay

/-- The same with the row named. -/
theorem encode_accepted (i : Instr) : ∃ w ds, encode i = w :: ds ∧ i.op.accepts w = true ∧
    (i.wellFormed = true → commandLength w = ds.length + 1) := by
  obtain ⟨x, w, ds, he, ha, hc, hl⟩ := encodesItsRow i
  obtain rfl : x = i.op := Op.code_injective (hc.symm.trans (fieldOp_of_encode he))
  exact ⟨w, ds, he, ha, hl⟩

/-- An instruction's row reads its operands back from its encoding. 30_encoding.md R63, R65, R66. -/
theorem operands_of_encode {i : Instr} (hw : i.wellFormed = true) {w : Word} {ds : List Word}
    (h : encode i = w :: ds) : i.op.operands w ds = i := by
  cases i with
  | writeString display text =>
    cases h
    have hl : text.length ≤ 255 := of_decide_eq_true hw
    have hn : (BitVec.ofNat 8 text.length).toNat = text.length := by
      rw [BitVec.toNat_ofNat, Nat.mod_eq_of_lt (by omega)]
    simp only [Instr.op, Op.operands, fieldA_commandWord, fieldC_commandWord, hn, textOf_textWords]
  | _ =>
    cases h
    simp only [Instr.op, Op.operands, fieldA_commandWord, fieldB_commandWord, fieldC_commandWord, fieldD_commandWord,
      List.getD_cons_zero]

/-- Settles O1: the encoding begins with a word of the instruction's row and has the words that word counts, so the
decoder takes exactly them, and the row reads the operands back. -/
theorem decodeOfEncodeIsTheCommand : Obligations.DecodeOfEncodeIsTheCommand := by
  intro i rest hw
  obtain ⟨w, ds, he, ha, hl⟩ := encode_accepted i
  have hlen : commandLength w = ds.length + 1 := hl hw
  have htake : (ds ++ rest).take (commandLength w - 1) = ds := by rw [hlen]; exact List.take_left
  rw [he, List.cons_append, decode_accepts ha (by simp [hlen]), htake, operands_of_encode hw he, hlen, List.length_cons]

/-- Settles O3: the opcode names at most one row, and that row's reserved bits decide. -/
theorem everyCommandWordMatchesOneRowOrIsIllegal : Obligations.EveryCommandWordMatchesOneRowOrIsIllegal := by
  intro w ds hl
  have unique : ∀ {x y : Op}, fieldOp w = x.code → fieldOp w = y.code → y = x :=
    fun hx hy => Op.code_injective (hy.symm.trans hx)
  rcases decode_cases w hl with ⟨hn, hd⟩ | ⟨x, hc, h⟩
  · refine .inl ⟨opOfCode_eq_none_iff.mp hn, hd, fun x hx => ?_⟩
    rw [Op.code_of_accepts (Op.accepts_iff.mpr hx), opOfCode_code] at hn
    cases hn
  · refine .inr ⟨x, hc, fun y hy => unique hc hy, ?_⟩
    rcases h with ⟨ha, hd⟩ | ⟨ha, hd⟩
    · exact .inl ⟨Op.accepts_iff.mp ha, fun y hy => unique hc (Op.code_of_accepts (Op.accepts_iff.mpr hy)), hd⟩
    · exact .inr ⟨fun hx => ha (Op.accepts_iff.mpr hx), hd⟩

end Sys2Proof
end

section
/-! SUPPORT. The characters of a text in its data words. 30_encoding.md R65. -/

namespace Sys2Proof

theorem textOf_getD {n i : Nat} (h : i < n) (ds : List Word) : (textOf n ds).getD i 0 = charAt ds i := by
  simp [textOf, h]

theorem charAt_eq_shifted_byte (ds : List Word) (i : Nat) :
    charAt ds i = ((ds.getD (i / 4) 0) >>> (8 * (i % 4))).setWidth 8 :=
  BitVec.setWidth_ushiftRight_eq_extractLsb.symm

/-- The characters of a text stand in its data words, whatever follows them. 30_encoding.md R64, R65. -/
theorem textOf_take {n k : Nat} (h : textWordCount n ≤ k) (ds : List Word) : textOf n (ds.take k) = textOf n ds := by
  refine List.map_congr_left fun i hi => ?_
  have hk : i / 4 < k := by
    have hn : i < n := List.mem_range.mp hi
    unfold textWordCount at h
    omega
  simp only [charAt, List.getD_eq_getElem?_getD, List.getElem?_take_of_lt hk]

/-- A writeString word with its data words decodes to the text they hold. 30_encoding.md R63, R65. -/
theorem decode_writeString {w : Word} {ds : List Word} (h : w &&& 0xFF00FF00 = 0x60000000)
    (hl : textWordCount (fieldC w).toNat ≤ ds.length) :
    decode (w :: ds) =
      .command (.writeString (fieldA w) (textOf (fieldC w).toNat ds)) (1 + textWordCount (fieldC w).toNat) := by
  have ha : Op.writeString.accepts w = true := Op.accepts_iff.mpr h
  have hlen : commandLength w = 1 + textWordCount (fieldC w).toNat := commandLength_of_text (Op.code_of_accepts ha)
  rw [decode_accepts ha (by omega), hlen, Op.operands, textOf_take (by omega)]

/-- Settles O5: the text decoded is the N bytes of the data words, each by its word and its place in it. -/
theorem writeStringTakesItsBytesLowestFirst : Obligations.WriteStringTakesItsBytesLowestFirst := by
  intro w ds h hl
  refine ⟨textOf (fieldC w).toNat ds, textOf_length _ _, fun i hi => ?_, decode_writeString h hl⟩
  rw [textOf_length] at hi
  rw [textOf_getD hi, charAt_eq_shifted_byte]

end Sys2Proof
end

section
/-! SUPPORT. From a word back to its encoding: a word that its row accepts is put together again from the fields its
row's operands take. 30_encoding.md R61 to R63, R68. -/

namespace Sys2Proof

/-! ## The fields of an accepted word -/

/-- Bits [27:25], which every row reserves. 30_encoding.md R61, R68. -/
def fieldReserved (w : Word) : BitVec 3 := w.extractLsb' 25 3

/-- A word whose bits [27:25] are zero is made of its fields. 30_encoding.md R61. -/
theorem commandWord_fields {w : Word} (h : fieldReserved w = 0) :
    commandWord (fieldOp w) (fieldD w) (fieldA w) (fieldB w) (fieldC w) = w := by
  have h0 : w[25] = false := by simpa [fieldReserved] using congrArg (·[0]) h
  have h1 : w[26] = false := by simpa [fieldReserved] using congrArg (·[1]) h
  have h2 : w[27] = false := by simpa [fieldReserved] using congrArg (·[2]) h
  unfold commandWord fieldOp fieldD fieldA fieldB fieldC
  ext i hi
  interval_cases i <;> simp [h0, h1, h2]

/-- In each field an accepted word agrees with the match word wherever the mask is set. 30_encoding.md R62. -/
theorem Op.extract_of_accepts {x : Op} {w : Word} (h : x.accepts w = true) (start len : Nat) :
    w.extractLsb' start len &&& x.mask.extractLsb' start len = x.matchWord.extractLsb' start len := by
  rw [← BitVec.extractLsb'_and, Op.accepts_iff.mp h]

/-- A field the mask covers and the match word leaves zero is zero in an accepted word: a reserved field.
30_encoding.md R68. -/
theorem Op.extract_eq_zero_of_accepts {x : Op} {w : Word} (h : x.accepts w = true) (start len : Nat)
    (hm : x.mask.extractLsb' start len = BitVec.allOnes len) (h0 : x.matchWord.extractLsb' start len = 0#len) :
    w.extractLsb' start len = 0#len := by
  have key := x.extract_of_accepts h start len
  rwa [hm, h0, BitVec.and_allOnes] at key

theorem Op.fieldD_of_accepts {x : Op} {w : Word} (h : x.accepts w = true)
    (hm : x.mask.extractLsb' 24 1 = BitVec.allOnes 1) (h0 : x.matchWord.extractLsb' 24 1 = 0#1) :
    fieldD w = false := by
  rw [fieldD, BitVec.getLsbD_eq_extractLsb', x.extract_eq_zero_of_accepts h 24 1 hm h0]
  decide

/-- An accepted word is its row's opcode with the word's own fields. 30_encoding.md R62, R68. -/
theorem commandWord_of_accepts {x : Op} {w : Word} (h : x.accepts w = true) :
    commandWord x.code (fieldD w) (fieldA w) (fieldB w) (fieldC w) = w := by
  rw [← Op.code_of_accepts h]
  refine commandWord_fields (x.extract_eq_zero_of_accepts h 25 3 ?_ ?_) <;> cases x <;> decide

/-! ## The words of a decoded command -/

/-- Encoding what a row reads from an accepted word gives the word back: the fields the row does not read are zero.
30_encoding.md R63, R68. -/
theorem encode_operands_head {x : Op} {w : Word} (h : x.accepts w = true) (ds : List Word) :
    (encode (x.operands w ds)).head? = some w := by
  have hw := commandWord_of_accepts h
  have zero := fun start len => x.extract_eq_zero_of_accepts h start len
  have hD := x.fieldD_of_accepts h
  cases x with
  | setDigit => exact congrArg some hw
  | setDigit16 =>
    have hA : fieldA w = 0 := zero 16 8 rfl rfl
    rw [hA] at hw
    exact congrArg some hw
  | clearDisplay =>
    have hB : fieldB w = 0 := zero 8 8 rfl rfl
    have hC : fieldC w = 0 := zero 0 8 rfl rfl
    rw [hB, hC, hD rfl rfl] at hw
    exact congrArg some hw
  | writeString =>
    have hB : fieldB w = 0 := zero 8 8 rfl rfl
    rw [hB, hD rfl rfl] at hw
    simp only [Op.operands, encode, textOf_length, BitVec.ofNat_toNat, BitVec.setWidth_eq, List.head?_cons]
    exact congrArg some hw
  | setBrightness =>
    have hA : fieldA w = 0 := zero 16 8 rfl rfl
    have hB : fieldB w = 0 := zero 8 8 rfl rfl
    rw [hA, hB, hD rfl rfl] at hw
    exact congrArg some hw
  | clearAll | fillAll | flush | configure | fadeStart | fadeTick | fadeBlocking =>
    have hA : fieldA w = 0 := zero 16 8 rfl rfl
    have hB : fieldB w = 0 := zero 8 8 rfl rfl
    have hC : fieldC w = 0 := zero 0 8 rfl rfl
    rw [hA, hB, hC, hD rfl rfl] at hw
    exact congrArg some hw

/-- All rows but writeString keep every bit of their data words. 30_encoding.md R66. -/
theorem encode_operands_tail {x : Op} {w : Word} {ds : List Word} (h : x.accepts w = true) (hx : x ≠ .writeString)
    (hl : ds.length + 1 = commandLength w) : (encode (x.operands w ds)).tail = ds := by
  have hop := Op.code_of_accepts h
  cases x with
  | writeString => exact absurd rfl hx
  | fadeStart | fadeBlocking =>
    rw [commandLength_of_delay (by rw [hop]; decide)] at hl
    obtain ⟨d, rfl⟩ := List.length_eq_one_iff.mp (Nat.succ.inj hl)
    rfl
  | setDigit | setDigit16 | clearDisplay | clearAll | fillAll | flush | setBrightness | configure | fadeTick =>
    rw [commandLength_of_other (by rw [hop]; decide) (by rw [hop]; decide) (by rw [hop]; decide)] at hl
    exact (List.length_eq_zero_iff.mp (Nat.succ.inj hl)).symm

/-- Whatever a row reads is well formed: the length of a text is an 8-bit field. 30_encoding.md R63. -/
theorem wellFormed_operands (x : Op) (w : Word) (ds : List Word) : (x.operands w ds).wellFormed = true := by
  cases x with
  | writeString =>
    have hn := (fieldC w).isLt
    simp only [Op.operands, Instr.wellFormed, textOf_length, decide_eq_true_eq]
    omega
  | _ => rfl

/-- What is read from an accepted word encodes to as many words as it counts. 30_encoding.md R64. -/
theorem encode_operands_length {x : Op} {w : Word} (h : x.accepts w = true) (ds : List Word) :
    (encode (x.operands w ds)).length = commandLength w := by
  obtain ⟨v, tail, he, -, hl⟩ := encode_accepted (x.operands w ds)
  have hv : v = w := by simpa [he] using encode_operands_head h ds
  rw [he, List.length_cons, ← hl (wellFormed_operands x w ds), hv]

/-- Settles O2: the command comes from a row that accepts the first word, and encoding what the row read gives that
word and, but for the padding of a text, the data words back. -/
theorem encodeOfDecodeIsTheWordsTaken : Obligations.EncodeOfDecodeIsTheWordsTaken := by
  intro ws i n h
  obtain ⟨w, ds, x, rfl, rfl, hl, ha, rfl⟩ := exists_accepts_of_decode h
  have hhead := encode_operands_head ha (ds.take (commandLength w - 1))
  refine ⟨wellFormed_operands .., encode_operands_length ha _, hl, hhead, fun hi => ?_, fun d text hi => ?_⟩
  · have hx : x ≠ .writeString := fun hx => hi (fieldA w) (textOf (fieldC w).toNat _) (by rw [hx]; rfl)
    have hpos := commandLength_pos w
    have hds : (ds.take (commandLength w - 1)).length + 1 = commandLength w := by
      rw [List.length_take]; omega
    calc encode (x.operands w (ds.take (commandLength w - 1)))
        = w :: ds.take (commandLength w - 1) := by
          rw [← List.cons_head?_tail hhead, encode_operands_tail ha hx hds]
      _ = (w :: ds).take (commandLength w) := by
          rw [← List.take_succ_cons, Nat.sub_add_cancel hpos]
  · obtain rfl : x = .writeString := (op_operands x w _).symm.trans (congrArg Instr.op hi)
    obtain ⟨-, ht⟩ := Instr.writeString.inj hi
    have hN : textWordCount (fieldC w).toNat ≤ commandLength w - 1 := by
      rw [commandLength_of_text (Op.code_of_accepts ha)]; omega
    rw [textOf_take hN] at ht
    rw [← ht, textOf_length, List.tail_cons]

end Sys2Proof
end

section
/-! SUPPORT. The command port: what a step takes from the stream. 10_state.md R30, 30_encoding.md R64. -/

namespace Sys2Proof.Machine

/-- A ready block with no reset in its turn takes the next command of the stream. -/
theorem step_of_ready {s : State} (hh : s.hung = none) (hb : s.blocking = false) (hr : ∀ ts, s.turns ≠ .reset :: ts) :
    step s = takeCommand (takeTurn s) := by
  rw [step_of_run hr, runBlock_ready (by simpa using hh) (by simpa using hb)]

theorem takeCommand_incomplete {u : State} (h : decode u.stream = .incomplete) :
    takeCommand u = .next (receiveWords u) := by
  rw [takeCommand, h]

theorem takeCommand_illegal {u : State} {why : IllegalCause} {n : Nat} (h : decode u.stream = .illegal why n) :
    takeCommand u = .next (illegalCommand (takeWords n u)) := by
  rw [takeCommand, h]

theorem takeCommand_command {u : State} {i : Instr} {n : Nat} (h : decode u.stream = .command i n) :
    takeCommand u = .next (afterCommand i (takeWords n u)) := by
  rw [takeCommand, h]
  exact exec_eq i _

/-- No command touches the ports, the bus and the result port apart. 20_memory.md R54. -/
theorem samePorts_afterCommand (i : Instr) (s : State) : SamePorts s (afterCommand i s) := by
  obtain ⟨-, -, -, -, -, hp⟩ := elementsAreWrittenOnlyByTheirCommands i s _ (exec_eq i s)
  exact hp

/-- A whole command, legal or not, is taken with exactly the words its command word counts. 30_encoding.md R64. -/
theorem takeCommand_whole {u : State} {w : Word} {ds : List Word} (hs : u.stream = w :: ds)
    (hl : commandLength w ≤ ds.length + 1) :
    ∃ t, takeCommand u = .next t ∧ t.received = [] ∧ t.offered = (w :: ds).drop (commandLength w) := by
  have left : (takeWords (commandLength w) u).offered = (w :: ds).drop (commandLength w) := congrArg (List.drop _) hs
  have illegal {why : IllegalCause} (hd : decode (w :: ds) = .illegal why (commandLength w)) :
      ∃ t, takeCommand u = .next t ∧ t.received = [] ∧ t.offered = (w :: ds).drop (commandLength w) :=
    ⟨_, takeCommand_illegal (hs ▸ hd), rfl, left⟩
  rcases decode_cases w hl with ⟨-, hd⟩ | ⟨x, -, ⟨-, hd⟩ | ⟨-, hd⟩⟩
  · exact illegal hd
  · obtain ⟨hrec, hoff, -⟩ := samePorts_afterCommand (x.operands w _) (takeWords (commandLength w) u)
    exact ⟨_, takeCommand_command (hs ▸ hd), hrec, hoff.trans left⟩
  · exact illegal hd

/-- Settles O9: a ready block whose stream does not decode receives the stream. -/
theorem partOfACommandIsReceivedAndKept : Obligations.PartOfACommandIsReceivedAndKept := by
  intro s hh hb hr hd
  rw [step_of_ready hh hb hr, takeCommand_incomplete hd]
  rfl

/-- Settles O4: the length by opcode, what each decoding consumes, and what a step takes. -/
theorem commandLengthComesFromTheCommandWordAlone : Obligations.CommandLengthComesFromTheCommandWordAlone := by
  intro w ds
  have consumed {n : Nat} (h : (∃ i, decode (w :: ds) = .command i n) ∨ ∃ why, decode (w :: ds) = .illegal why n) :
      n = commandLength w := by
    obtain ⟨v, es, hv, hn, -⟩ := decode_length h
    rw [hn, (List.cons.inj hv).1]
  refine ⟨commandLength_of_text, commandLength_of_delay, fun ⟨h6, hA, hC⟩ => commandLength_of_other h6 hA hC,
    decode_incomplete_iff w ds, fun i n h => consumed (.inl ⟨i, h⟩), fun why n h => consumed (.inr ⟨why, h⟩),
    fun s hh hb hr hs => ?_⟩
  rw [step_of_ready hh hb hr]
  by_cases hl : commandLength w ≤ ds.length + 1
  · obtain ⟨t, ht, hrec, hoff⟩ := takeCommand_whole hs hl
    exact ⟨t, ht, fun hlt => absurd hlt (Nat.not_lt.mpr hl), fun _ => ⟨hrec, hoff⟩⟩
  · have hd : decode (takeTurn s).stream = .incomplete := by
      rw [State.stream, hs, decode_incomplete_iff]
      exact Nat.not_le.mp hl
    exact ⟨_, takeCommand_incomplete hd, fun _ => ⟨hs, rfl⟩, fun hle => absurd hle hl⟩

end Sys2Proof.Machine
end

section
/-! SUPPORT. What a step drives on its ports: the four payloads and results, nothing else. 30_encoding.md R71, R72,
R75. -/

namespace Sys2Proof.Machine

/-! ## Legal moves -/

/-- Between `s` and `t` only legal events are driven, and the parameters are kept. 30_encoding.md R75. -/
def LegalMove (s t : State) : Prop :=
  t.cfg = s.cfg ∧ ∃ evs, t.outputs = s.outputs ++ evs ∧ ∀ o ∈ evs, o.legal s.cfg s.buf

theorem AtMostAResult.legalMove {s t : State} (h : AtMostAResult s t) (hc : t.cfg = s.cfg) : LegalMove s t := by
  rcases h with h | ⟨st, f, h⟩
  · exact ⟨hc, [], by simp [h], by simp⟩
  · exact ⟨hc, _, h, by simp [Output.legal]⟩

/-- Every payload is one of the four; that of a RAM write carries the rows it was made with. 30_encoding.md R71. -/
theorem legal_bus {c : Config} {m : Memory} {p : Payload} (hp : ∀ rows, p = .ramWrite rows → rows = memRead m 0 16)
    (r : BusReply) : Output.legal c m (.bus c.i2cAddr (p.bytes c) r) := by
  refine ⟨rfl, ?_⟩
  cases p with
  | oscillatorEnable => exact .inl rfl
  | displayEnable => exact .inr (.inl rfl)
  | brightness level => exact .inr (.inr (.inl ⟨level, rfl⟩))
  | ramWrite rows => rw [hp rows rfl, memRead_eq_rowsOf]; exact .inr (.inr (.inr rfl))

/-- An operation over the bus and the end of its command. -/
theorem BusPart.legalMove {s t : State} {o : BusReply × State} {evs : List Output} (h : BusPart s o evs)
    (ht : AtMostAResult o.2 t) (hc : t.cfg = s.cfg) : LegalMove s t := by
  have legal : ∀ e ∈ evs, e.legal s.cfg s.buf := by
    intro e he
    obtain ⟨p, r, rfl, hp⟩ := h.legal e he
    exact legal_bus hp r
  rcases ht with ho | ⟨st, f, ho⟩
  · exact ⟨hc, evs, by rw [ho, h.outputs], legal⟩
  · refine ⟨hc, evs ++ [.result st f], by rw [ho, h.outputs, List.append_assoc], fun e he => ?_⟩
    rcases List.mem_append.mp he with he | he
    · exact legal e he
    · rw [List.mem_singleton.mp he]; trivial

theorem legalMove_afterCommand (i : Instr) (s : State) : LegalMove s (afterCommand i s) := by
  obtain ⟨-, -, -, hc, -⟩ := samePorts_afterCommand i s
  rcases afterCommand_cases i s with ⟨ho, -⟩ | ⟨o, evs, hb, heq, -⟩ | ⟨ho, -⟩
  · exact AtMostAResult.legalMove (.inr ⟨_, _, ho⟩) hc
  · exact hb.legalMove (heq ▸ atMostAResult_finish s o) hc
  · exact AtMostAResult.legalMove (.inl ho) hc

theorem endInternalStep_cfg (e : Bool) (s : State) : (endInternalStep e s).cfg = s.cfg := by
  unfold endInternalStep
  split <;> rfl

theorem legalMove_internalStep (s : State) : LegalMove s (internalStep s) := by
  obtain ⟨evs, hb⟩ := fadeStepF_part s
  have hc : (fadeStepF s).2.cfg = s.cfg := by simp [fadeStepF_frame]
  rcases internalStep_cases s with ⟨-, h⟩ | ⟨-, -, h⟩ | ⟨-, -, h⟩ <;> rw [h]
  · exact AtMostAResult.legalMove (.inl rfl) rfl
  · exact hb.legalMove (.inl rfl) hc
  · exact hb.legalMove (atMostAResult_endInternalStep _ _) ((endInternalStep_cfg _ _).trans hc)

/-- A move after one that drives nothing and keeps the buffer and the parameters: the turn, the taking of words. -/
theorem LegalMove.of_same {s u t : State} (h : LegalMove u t) (ho : u.outputs = s.outputs) (hb : u.buf = s.buf)
    (hc : u.cfg = s.cfg) : LegalMove s t := by
  rwa [LegalMove, ho, hb, hc] at h

theorem legalMove_step {s t : State} (h : step s = .next t) : LegalMove s t := by
  refine LegalMove.of_same (u := takeTurn s) ?_ (takeTurn_outputs s) (takeTurn_buf s) (takeTurn_cfg s)
  rcases step_cases h with ⟨ts, -, rfl⟩ | ⟨-, rfl⟩ | ⟨-, -, rfl⟩ | ⟨-, -, -, rfl⟩ | ⟨-, -, why, n, -, rfl⟩ |
    ⟨-, -, i, n, -, rfl⟩
  · exact AtMostAResult.legalMove (.inl rfl) rfl
  · exact AtMostAResult.legalMove (.inl rfl) rfl
  · exact legalMove_internalStep _
  · exact AtMostAResult.legalMove (.inl rfl) rfl
  · exact AtMostAResult.legalMove (.inr ⟨_, _, rfl⟩) rfl
  · exact (legalMove_afterCommand i (takeWords n (takeTurn s))).of_same rfl rfl rfl

/-- Settles O30: each of the six courses of a step is a legal move. -/
theorem everyTransactionIsOneOfFourPayloads : Obligations.EveryTransactionIsOneOfFourPayloads := by
  intro s t h
  obtain ⟨hc, evs, ho, hl⟩ := legalMove_step h
  rw [newOutputs_of_append ho]
  exact ⟨ho, hc, hl⟩

/-! ## The brightness byte -/

/-- The low nibble of a brightness byte is the level: that of `BRIGHT_BASE` is zero. 30_encoding.md R72. -/
theorem encodeBrightness_low_nibble (c : Config) (lv : BitVec 4) : (encodeBrightness c lv).extractLsb' 0 4 = lv := by
  have hbase : c.brightBase.extractLsb' 0 4 = 0#4 := BitVec.extractLsb'_append_eq_right
  rw [encodeBrightness, BitVec.extractLsb'_or, hbase, BitVec.zero_or,
    BitVec.extractLsb'_setWidth_of_le (by decide), BitVec.extractLsb'_eq_self]

/-- Settles O28: the low nibble tells the level, so two levels with one byte are one. -/
theorem brightnessByteTellsTheLevel : Obligations.BrightnessByteTellsTheLevel := by
  intro c lv lv'
  refine ⟨rfl, encodeBrightness_low_nibble c lv, fun h => ?_, encodeBrightness_zero c⟩
  rw [← encodeBrightness_low_nibble c lv, h, encodeBrightness_low_nibble]

end Sys2Proof.Machine
end

section
/-! SUPPORT. The assembler: when an operand fits its field, and the command each operand list gives.
30_encoding.md R76, R77. -/

namespace Sys2Proof.Machine

/-! ## Operands that fit -/

section
variable {α : Type} {n : Nat} {a : α}

theorem byteOperand_bind_eq_some_iff {f : Byte → Option α} :
    (byteOperand n).bind f = some a ↔ n ≤ 255 ∧ f (BitVec.ofNat 8 n) = some a := by
  by_cases h : n ≤ 255 <;> simp [byteOperand, h]

theorem byteOperand_map_eq_some_iff {f : Byte → α} :
    (byteOperand n).map f = some a ↔ n ≤ 255 ∧ a = f (BitVec.ofNat 8 n) := by
  rw [Option.map_eq_bind, byteOperand_bind_eq_some_iff, Function.comp_apply, Option.some.injEq, eq_comm (b := a)]

theorem delayOperand_map_eq_some_iff {f : Word → α} :
    (delayOperand n).map f = some a ↔ n < 2 ^ 32 ∧ a = f (BitVec.ofNat 32 n) := by
  unfold delayOperand
  split
  case isTrue h => simp only [h, Option.map_some, Option.some.injEq, true_and, eq_comm]
  case isFalse h => simp only [h, Option.map_none, reduceCtorEq, false_and]

theorem dotOperand_map_eq_some_iff {f : Bool → α} :
    (dotOperand n).map f = some a ↔ n ≤ 1 ∧ a = f (n == 1) := by
  match n with
  | 0 => simp [dotOperand, eq_comm]
  | 1 => simp [dotOperand, eq_comm]
  | n + 2 => simp [dotOperand]

end

/-! ## The operand list of a mnemonic's kinds -/

theorem commandOf_setDigit (d p pat dot : Nat) :
    commandOf (.command .setDigit) [.number d, .number p, .number pat, .number dot] =
      (byteOperand d).bind fun d => (byteOperand p).bind fun p => (byteOperand pat).bind fun pat =>
        (dotOperand dot).map (.setDigit d p pat) := by
  rw [commandOf]
  cases byteOperand d <;> cases byteOperand p <;> cases byteOperand pat <;> cases dotOperand dot <;> rfl

theorem commandOf_setDigit16 (p pat dot : Nat) :
    commandOf (.command .setDigit16) [.number p, .number pat, .number dot] =
      (byteOperand p).bind fun p => (byteOperand pat).bind fun pat => (dotOperand dot).map (.setDigit16 p pat) := by
  rw [commandOf]
  cases byteOperand p <;> cases byteOperand pat <;> cases dotOperand dot <;> rfl

theorem commandOf_blankDigit (d p : Nat) :
    commandOf .blankDigit [.number d, .number p] =
      (byteOperand d).bind fun d => (byteOperand p).map fun p => .setDigit d p 0 false := by
  rw [commandOf]
  cases byteOperand d <;> cases byteOperand p <;> rfl

theorem commandOf_writeString_eq_some_iff {d : Nat} {text : List Byte} {i : Instr} :
    commandOf (.command .writeString) [.number d, .text text] = some i ↔
      d ≤ 255 ∧ text.length ≤ 255 ∧ i = .writeString (BitVec.ofNat 8 d) text := by
  rw [commandOf]
  split
  case isTrue h => simp only [byteOperand_map_eq_some_iff, h, true_and]
  case isFalse h => simp only [h, reduceCtorEq, false_and, and_false]

/-! ## Lines -/

/-- No two mnemonics are spelled alike. 30_encoding.md R76. -/
theorem find_mnemonic {name : List Byte} {m : Mnemonic} (h : (name, m) ∈ mnemonics) :
    mnemonics.find? (fun e => e.1 == name) = some (name, m) := by
  have distinct : ∀ e ∈ mnemonics, mnemonics.find? (fun e' => e'.1 == e.1) = some e := by decide
  exact distinct _ h

/-- A line of a mnemonic and operands is what `commandOf` makes of them. 30_encoding.md R76. -/
theorem assembleLine_of_tokens {line name : List Byte} {ts : List Token} {m : Mnemonic} {os : List Operand}
    (hl : scanLine line = some (.word name :: ts)) (hm : (name, m) ∈ mnemonics) (ho : operandsOf ts = some os) :
    assembleLine line = ((commandOf m os).map Assembled.command).getD .refusedLine := by
  simp only [assembleLine, hl, find_mnemonic hm, ho]
  cases commandOf m os <;> rfl

/-- Settles O58: each operand list is refused by its operands' checks alone, and a line goes by its operand list. -/
theorem assemblerRefusesOnlyWhatDoesNotFit : Obligations.AssemblerRefusesOnlyWhatDoesNotFit := by
  refine ⟨fun d p pat dot i => ?operands, rfl, rfl, rfl, rfl, rfl, rfl, fun line name ts m os hl hm ho => ?line⟩
  case operands =>
    refine ⟨?setDigit, ?setDigit16, byteOperand_map_eq_some_iff, byteOperand_map_eq_some_iff,
      fun _ => commandOf_writeString_eq_some_iff, delayOperand_map_eq_some_iff, delayOperand_map_eq_some_iff,
      ?blankDigit, byteOperand_map_eq_some_iff⟩
    case setDigit =>
      simp only [commandOf_setDigit, byteOperand_bind_eq_some_iff, dotOperand_map_eq_some_iff]
    case setDigit16 =>
      simp only [commandOf_setDigit16, byteOperand_bind_eq_some_iff, dotOperand_map_eq_some_iff]
    case blankDigit =>
      simp only [commandOf_blankDigit, byteOperand_bind_eq_some_iff, byteOperand_map_eq_some_iff]
  case line =>
    rw [assembleLine_of_tokens hl hm ho]
    exact ⟨fun i hi => by rw [hi]; rfl, fun hn => by rw [hn]; rfl⟩

end Sys2Proof.Machine
end

section
/-! SUPPORT. Commands of one word: the row that accepts the word decodes it at once, whatever follows.
30_encoding.md R64, R70. -/

namespace Sys2Proof

/-- A word that the row of a command without data words accepts is that command. -/
theorem decode_oneWord {x : Op} {w : Word} (h : w &&& x.mask = x.matchWord)
    (hx : x.code ≠ 0x6 ∧ x.code ≠ 0xA ∧ x.code ≠ 0xC) (ds : List Word) :
    decode (w :: ds) = .command (x.operands w []) 1 := by
  obtain ⟨h6, hA, hC⟩ := hx
  have ha : x.accepts w = true := Op.accepts_iff.mpr h
  rw [← Op.code_of_accepts ha] at h6 hA hC
  have hl : commandLength w = 1 := commandLength_of_other h6 hA hC
  rw [decode_accepts ha (by omega), hl, Nat.sub_self, List.take_zero]

/-- Settles O6: each word with its row, for the three illegal ones no row or the row whose reserved bits it breaks. -/
theorem wordsOfTheSpecDecodeToTheirCommands : Obligations.WordsOfTheSpecDecodeToTheirCommands :=
  ⟨decode_oneWord (x := .setDigit) rfl (by decide) [],
    decode_oneWord (x := .setDigit16) rfl (by decide) [],
    decode_oneWord (x := .clearDisplay) rfl (by decide) [],
    decode_writeString rfl (by decide),
    decode_oneWord (x := .setBrightness) rfl (by decide) [],
    decode_accepts (x := .fadeStart) rfl (by decide),
    decode_accepts (x := .fadeBlocking) rfl (by decide),
    decode_reservedOpcode rfl (by decide),
    decode_reservedBits (x := .setDigit) rfl (by decide) (by decide),
    decode_reservedBits (x := .writeString) rfl (by decide) (by decide)⟩

end Sys2Proof
end

section
/-! SUPPORT. The codec commands by the function each applies to the buffer. 40_buffer_codec.md R80 to R87. -/

namespace Sys2Proof.Machine

/-- The buffer a codec command makes of the one before it; every other command keeps it. -/
def codecF : Instr → Memory → Memory
  | .setDigit d p pat dot, m => setDigitF m d p pat dot
  | .setDigit16 q pat dot, m => setDigit16F m q pat dot
  | .clearDisplay d, m => clearDisplayF m d
  | .clearAll, m => fillRows m 0x00
  | .fillAll, m => fillRows m 0xFF
  | _, m => m

/-- A codec command replaces the buffer, drives (OK, fading) and does nothing else. 40_buffer_codec.md R87. -/
theorem exec_codec {i : Instr} (h : isCodec i = true) (s : State) :
    exec i s = .next (withResult .ok { s with buf := codecF i s.buf }) := by
  cases i with
  | setDigit | setDigit16 | clearDisplay | clearAll | fillAll => rfl
  | _ => cases h

theorem codecF_wf (i : Instr) {m : Memory} (hm : m.wf) : (codecF i m).wf := by
  cases i with
  | setDigit d p pat dot => exact setDigitF_wf hm d p pat dot
  | setDigit16 q pat dot => exact setDigit16F_wf hm q pat dot
  | clearDisplay d => exact clearDisplayF_wf hm d
  | clearAll => exact fillRows_wf hm 0x00
  | fillAll => exact fillRows_wf hm 0xFF
  | _ => exact hm

/-! ## Invalid coordinates -/

theorem setDigitF_invalid (m : Memory) {d p : Byte} (h : ¬ (d < 2 ∧ p < 8)) (pat : Byte) (dot : Bool) :
    setDigitF m d p pat dot = m := by
  rw [setDigitF, coord_invalid h]

theorem setDigit16F_invalid (m : Memory) {q : Byte} (h : ¬ q < 16) (pat : Byte) (dot : Bool) :
    setDigit16F m q pat dot = m := if_neg h

theorem clearDisplayF_invalid (m : Memory) {d : Byte} (h : ¬ d < 2) : clearDisplayF m d = m :=
  List.foldl_fixed' (fun _ => setDigitF_invalid m (fun hc => h hc.1) 0x00 false) eight

theorem codecF_invalid {i : Instr} (h : invalidCoordinate i = true) (m : Memory) : codecF i m = m := by
  cases i with
  | setDigit d p pat dot => exact setDigitF_invalid m (of_decide_eq_true h) pat dot
  | setDigit16 q pat dot => exact setDigit16F_invalid m (of_decide_eq_true h) pat dot
  | clearDisplay d => exact clearDisplayF_invalid m (of_decide_eq_true h)
  | clearAll | fillAll => cases h
  | _ => rfl

/-- Settles O20: the new buffer depends on the old one alone. -/
theorem codecCommandsChangeOnlyTheBuffer : Obligations.CodecCommandsChangeOnlyTheBuffer := fun i s hi =>
  ⟨codecF i s.buf, fun t => exec_codec hi { s with now := t }, codecF_wf i, fun h => codecF_invalid h s.buf⟩

end Sys2Proof.Machine
end

section
/-! SUPPORT. The clearing and filling of whole rows. 40_buffer_codec.md R85, R86. -/

namespace Sys2Proof.Machine

theorem fillRows_zero {m : Memory} (hm : m.wf) : fillRows m 0x00 = [] :=
  Memory.ext_of_read (fillRows_wf hm 0x00) Memory.nil_wf (fillRows_read hm 0x00)

/-- Settles O18: in its canonical form a buffer of zero rows is the empty list. -/
theorem clearAllZeroesTheBuffer : Obligations.ClearAllZeroesTheBuffer :=
  ⟨decode_oneWord (x := .clearAll) rfl (by decide),
    fun s hs => ⟨fillRows s.buf 0x00, exec_codec rfl s, fillRows_zero hs, fillRows_read hs 0x00⟩⟩

/-- A flush of the buffer `m` sends `RAM_BASE` and its rows in one transaction, however it is answered.
30_encoding.md R74. -/
theorem busBytes_flush {s u : State} {m : Memory} (h : exec .flush { s with buf := m } = .next u) :
    busBytes (newOutputs s u) = [ramBase :: memRead m 0 16] := by
  cases h
  rcases finish_outputs (flushBuffer_part { s with buf := m }) with ⟨-, -, ho⟩ | ⟨-, -, ho⟩
  · exact congrArg busBytes ho
  · exact congrArg busBytes ho

theorem memRead_of_rows {m : Memory} {v : Byte} (h : ∀ r, m.read r = v) : memRead m 0 16 = List.replicate 16 v := by
  simp [memRead, h]

/-- Settles O19: every row is written, and a flush sends the rows as they stand. -/
theorem fillAllLightsEveryLamp : Obligations.FillAllLightsEveryLamp := by
  refine ⟨decode_oneWord (x := .fillAll) rfl (by decide), fun s hs => ?_⟩
  have hrows := fillRows_read hs 0xFF
  refine ⟨fillRows s.buf 0xFF, exec_codec rfl s, hrows, fun u hu => ?_⟩
  rw [busBytes_flush hu, memRead_of_rows hrows]
  rfl

end Sys2Proof.Machine
end

section
/-! SUPPORT. One column of the rows of a display: what a digit write and a clear leave in each row.
40_buffer_codec.md R80, R82, R84. -/

namespace Sys2Proof.Machine

/-! ## Rows and valid coordinates by number -/

theorem row_div (d : BitVec 1) (s : BitVec 3) : (row d s).toNat / 8 = d.toNat := by
  rw [row_toNat]; omega

theorem row_mod (d : BitVec 1) (s : BitVec 3) : (row d s).toNat % 8 = s.toNat := by
  rw [row_toNat]; omega

theorem toNat_eq_seven_iff (s : BitVec 3) : s.toNat = 7 ↔ s = dotRow := BitVec.toNat_inj (y := dotRow)

theorem exists_display {d : Byte} (h : d < 2) : ∃ e : BitVec 1, d = e.setWidth 8 :=
  ⟨d.setWidth 1, by bv_omega⟩

theorem exists_position {p : Byte} (h : p < 8) : ∃ q : BitVec 3, p = q.setWidth 8 :=
  ⟨p.setWidth 3, by bv_omega⟩

theorem toNat_setWidth_display (d : BitVec 1) : (d.setWidth 8).toNat = d.toNat :=
  BitVec.toNat_setWidth_of_le (by decide)

theorem toNat_setWidth_position (p : BitVec 3) : (p.setWidth 8).toNat = p.toNat :=
  BitVec.toNat_setWidth_of_le (by decide)

theorem setWidth_lt_two (d : BitVec 1) : d.setWidth 8 < (2 : Byte) := by bv_omega

theorem setWidth_lt_eight (p : BitVec 3) : p.setWidth 8 < (8 : Byte) := by bv_omega

/-! ## A column of a row -/

/-- The row `v` with the bit of position `p` replaced by `b`. 40_buffer_codec.md R80. -/
def putColumn (p : BitVec 3) (b : Bool) (v : Byte) : Byte := (v &&& ~~~(mask p)) ||| if b then mask p else 0

theorem getLsbD_mask (p : BitVec 3) {k : Nat} (hk : k < 8) : (mask p).getLsbD k = decide (k = p.toNat) := by
  have hall : ∀ k < 8, ∀ p, (mask p).getLsbD k = decide (k = p.toNat) := by decide
  exact hall k hk p

theorem getLsbD_putColumn (p : BitVec 3) (b : Bool) (v : Byte) {k : Nat} (hk : k < 8) :
    (putColumn p b v).getLsbD k = if k = p.toNat then b else v.getLsbD k := by
  rw [putColumn, BitVec.getLsbD_or, BitVec.getLsbD_and, BitVec.getLsbD_not, getLsbD_mask p hk, decide_eq_true hk]
  cases b
  · by_cases h : k = p.toNat <;> simp [h]
  · rw [if_pos rfl, getLsbD_mask p hk]
    by_cases h : k = p.toNat <;> simp [h]

theorem putColumn_putColumn (p : BitVec 3) (b c : Bool) (v : Byte) :
    putColumn p b (putColumn p c v) = putColumn p b v := by
  refine BitVec.eq_of_getLsbD_eq fun k hk => ?_
  simp only [getLsbD_putColumn _ _ _ hk]
  split <;> rfl

theorem putColumn_comm {p q : BitVec 3} (h : p ≠ q) (b c : Bool) (v : Byte) :
    putColumn p b (putColumn q c v) = putColumn q c (putColumn p b v) := by
  refine BitVec.eq_of_getLsbD_eq fun k hk => ?_
  simp only [getLsbD_putColumn _ _ _ hk]
  by_cases hp : k = p.toNat
  · rw [if_pos hp, if_neg fun hq => h (BitVec.eq_of_toNat_eq (hp.symm.trans hq)), if_pos hp]
  · rw [if_neg hp, if_neg hp]

/-- Blanking some columns one by one keeps the bits of the others. -/
theorem getLsbD_foldl_putColumn (l : List (BitVec 3)) (v : Byte) (k : BitVec 3) :
    (l.foldl (fun v p => putColumn p false v) v).getLsbD k.toNat = if k ∈ l then false else v.getLsbD k.toNat := by
  induction l generalizing v with
  | nil => simp
  | cons p l ih =>
    rw [List.foldl_cons, ih, getLsbD_putColumn p false v k.isLt]
    by_cases hp : k = p <;> by_cases hl : k ∈ l <;> simp [hp, hl, BitVec.toNat_inj]

/-- Blanking the eight columns leaves nothing lit. 40_buffer_codec.md R84. -/
theorem foldl_putColumn_eight (v : Byte) : eight.foldl (fun v p => putColumn p false v) v = 0 := by
  refine BitVec.eq_of_getLsbD_eq fun k hk => ?_
  have h := getLsbD_foldl_putColumn eight v (BitVec.ofNatLT k hk)
  rw [if_pos (mem_eight _), BitVec.toNat_ofNatLT] at h
  simp [h]

/-! ## A digit write on the rows -/

/-- The bit that a digit takes in sub-row `q`: the dot in the decimal point's, else the segment's.
40_buffer_codec.md R80. -/
def digitBit (pat : Byte) (dot : Bool) (q : BitVec 3) : Bool := if q = dotRow then dot else pat.getLsbD q.toNat

theorem setDigitF_read_row {m : Memory} (hm : m.wf) (d : BitVec 1) (p : BitVec 3) (pat : Byte) (dot : Bool)
    (e : BitVec 1) (q : BitVec 3) :
    (setDigitF m (d.setWidth 8) (p.setWidth 8) pat dot).read (row e q) =
      if e = d then putColumn p (digitBit pat dot q) (m.read (row e q)) else m.read (row e q) := by
  have hd : (d.setWidth 8).setWidth 1 = d := BitVec.setWidth_setWidth_of_le d (by decide)
  have hp : (p.setWidth 8).setWidth 3 = p := by simp
  rw [setDigitF_read hm (setWidth_lt_two d) (setWidth_lt_eight p), hd, hp]
  rfl

/-- Settles O14: the model's closed form of a digit write, read at a row's display and sub-row. -/
theorem setDigitWritesOneColumn : Obligations.SetDigitWritesOneColumn := by
  refine ⟨fun w ds hw => decode_oneWord (x := .setDigit) hw (by decide) ds,
    fun display position pattern dot s hs => ?_⟩
  refine ⟨setDigitF s.buf display position pattern dot, exec_codec rfl s, fun ⟨hd, hp⟩ r => ?_,
    fun h => setDigitF_invalid s.buf h pattern dot⟩
  obtain ⟨d, rfl⟩ := exists_display hd
  obtain ⟨p, rfl⟩ := exists_position hp
  obtain ⟨e, q, rfl⟩ := exists_row r
  simp only [setDigitF_read_row hs, row_div, row_mod, toNat_setWidth_display, toNat_setWidth_position,
    BitVec.toNat_inj, toNat_eq_seven_iff]
  rfl

/-- Settles O16: a position below 16 splits into a valid coordinate. -/
theorem setDigit16IsSetDigitAtTheSplitPosition : Obligations.SetDigit16IsSetDigitAtTheSplitPosition := by
  refine ⟨fun w ds hw => decode_oneWord (x := .setDigit16) hw (by decide) ds, fun q pat dot s => ?_⟩
  have he : exec (.setDigit16 q pat dot) s = .next (withResult .ok { s with buf := setDigit16F s.buf q pat dot }) :=
    exec_codec rfl s
  refine ⟨fun hq => ?valid, fun hq => ?invalid⟩
  case valid =>
    have hF : setDigit16F s.buf q pat dot = setDigitF s.buf (q / 8) (q % 8) pat dot := if_pos hq
    rw [hF] at he
    have hd : q / 8 < 2 := BitVec.lt_def.mpr (BitVec.toNat_udiv ▸ Nat.div_lt_of_lt_mul hq)
    have hp : q % 8 < 8 := BitVec.umod_lt q (by decide)
    have hs := exec_codec (i := .setDigit (q / 8) (q % 8) pat dot) rfl s
    exact ⟨q / 8, q % 8, BitVec.toNat_udiv, BitVec.toNat_umod, hd, hp, he.trans hs.symm, he⟩
  case invalid => rw [he, setDigit16F_invalid s.buf (Nat.not_lt.mpr hq)]

/-! ## Two digit writes -/

/-- Two writes of a digit leave what the later one writes. 40_buffer_codec.md R82. -/
theorem setDigitF_setDigitF {m : Memory} (hm : m.wf) (d p pat pat' : Byte) (dot dot' : Bool) :
    setDigitF (setDigitF m d p pat' dot') d p pat dot = setDigitF m d p pat dot := by
  by_cases hv : d < 2 ∧ p < 8
  · obtain ⟨d, rfl⟩ := exists_display hv.1
    obtain ⟨p, rfl⟩ := exists_position hv.2
    have hm' := setDigitF_wf hm (d.setWidth 8) (p.setWidth 8) pat' dot'
    refine Memory.ext_of_read (setDigitF_wf hm' ..) (setDigitF_wf hm ..) fun r => ?_
    obtain ⟨e, q, rfl⟩ := exists_row r
    simp only [setDigitF_read_row hm', setDigitF_read_row hm]
    split
    · rw [putColumn_putColumn]
    · rfl
  · simp only [setDigitF_invalid _ hv]

/-- Writes of different digits commute. 40_buffer_codec.md R82. -/
theorem setDigitF_comm {m : Memory} (hm : m.wf) {d p d' p' : Byte} (hne : (d, p) ≠ (d', p')) (pat pat' : Byte)
    (dot dot' : Bool) :
    setDigitF (setDigitF m d p pat dot) d' p' pat' dot' = setDigitF (setDigitF m d' p' pat' dot') d p pat dot := by
  by_cases hv : d < 2 ∧ p < 8
  case neg => simp only [setDigitF_invalid _ hv]
  by_cases hv' : d' < 2 ∧ p' < 8
  case neg => simp only [setDigitF_invalid _ hv']
  obtain ⟨d, rfl⟩ := exists_display hv.1
  obtain ⟨p, rfl⟩ := exists_position hv.2
  obtain ⟨d', rfl⟩ := exists_display hv'.1
  obtain ⟨p', rfl⟩ := exists_position hv'.2
  have hm₁ := setDigitF_wf hm (d.setWidth 8) (p.setWidth 8) pat dot
  have hm₂ := setDigitF_wf hm (d'.setWidth 8) (p'.setWidth 8) pat' dot'
  refine Memory.ext_of_read (setDigitF_wf hm₁ ..) (setDigitF_wf hm₂ ..) fun r => ?_
  obtain ⟨e, q, rfl⟩ := exists_row r
  simp only [setDigitF_read_row hm₁, setDigitF_read_row hm₂, setDigitF_read_row hm]
  by_cases he : e = d
  case neg => simp only [if_neg he]
  by_cases he' : e = d'
  case neg => simp only [if_neg he']
  have hp : p' ≠ p := by
    rintro rfl
    exact hne (by rw [← he, ← he'])
  simp only [if_pos he, if_pos he', putColumn_comm hp]

/-- Settles O15: of two writes to one column the later stays, and writes to two columns of a row commute. -/
theorem lastWriteOfADigitWins : Obligations.LastWriteOfADigitWins := fun _ d p pat pat' dot dot' hb =>
  ⟨setDigitF_setDigitF hb d p pat pat dot dot, setDigitF_setDigitF hb d p pat pat' dot dot',
    fun _ _ hne => setDigitF_comm hb hne pat pat' dot dot'⟩

/-! ## The clear of a display -/

/-- Blank digits written one by one to a display blank their columns in each of its rows. -/
theorem foldl_blank_read (d : BitVec 1) (l : List (BitVec 3)) {m : Memory} (hm : m.wf) (e : BitVec 1) (q : BitVec 3) :
    (l.foldl (fun out p => setDigitF out (d.setWidth 8) (p.setWidth 8) 0x00 false) m).read (row e q) =
      if e = d then l.foldl (fun v p => putColumn p false v) (m.read (row e q)) else m.read (row e q) := by
  induction l generalizing m with
  | nil => simp
  | cons p l ih =>
    have hb : digitBit 0x00 false q = false := by simp [digitBit]
    rw [List.foldl_cons, List.foldl_cons, ih (setDigitF_wf hm ..), setDigitF_read_row hm, hb]
    by_cases he : e = d
    · rw [if_pos he, if_pos he, if_pos he]
    · rw [if_neg he, if_neg he, if_neg he]

theorem clearDisplayF_read {m : Memory} (hm : m.wf) (d : BitVec 1) (r : BitVec 4) :
    (clearDisplayF m (d.setWidth 8)).read r = if r.toNat / 8 = d.toNat then 0x00 else m.read r := by
  obtain ⟨e, q, rfl⟩ := exists_row r
  rw [clearDisplayF, foldl_blank_read d eight hm, foldl_putColumn_eight, row_div]
  simp only [BitVec.toNat_inj]

theorem clearDisplayF_eq_foldl_range (m : Memory) (d : Byte) :
    clearDisplayF m d = (List.range 8).foldl (fun b p => setDigitF b d (BitVec.ofNat 8 p) 0x00 false) m := rfl

/-- Settles O17: the eight blank digits of a display blank each of its rows. -/
theorem clearDisplayBlanksOneDisplay : Obligations.ClearDisplayBlanksOneDisplay := by
  refine ⟨fun w ds hw => decode_oneWord (x := .clearDisplay) hw (by decide) ds, fun display s hs => ?_⟩
  refine ⟨clearDisplayF s.buf display, exec_codec rfl s, clearDisplayF_eq_foldl_range s.buf display, fun hd r => ?_,
    clearDisplayF_invalid s.buf⟩
  obtain ⟨d, rfl⟩ := exists_display hd
  rw [clearDisplayF_read hs, toNat_setWidth_display]

end Sys2Proof.Machine
end

section
/-! SUPPORT. The scan of a text: writeString keeps what its digit writes keep, the scan is the indexed loop of the
pseudocode, and after the eighth character only its dot is read. 41_device_state.md R100 to R102. -/

namespace Sys2Proof.Machine

/-! ## The rows of the other display -/

/-- writeString is made of digit writes to its display: what each of them keeps, it keeps. -/
theorem writeStringF_induct {P : Memory → Prop} {d : Byte} (c : Config)
    (hP : ∀ m p pat dot, P m → P (setDigitF m d p pat dot)) {m : Memory} (hm : P m) (text : List Byte) :
    P (writeStringF c m d text) := by
  have hclear : P (clearDisplayF m d) := List.foldlRecOn eight _ hm fun m' hm' _ _ => hP m' _ _ _ hm'
  exact writeChars_induct c d P hP text.length text 0 _ le_rfl hclear

theorem writeStringF_invalid (c : Config) (m : Memory) {d : Byte} (h : ¬ d < 2) (text : List Byte) :
    writeStringF c m d text = m :=
  writeStringF_induct (P := (· = m)) c
    (fun m' _ pat dot hm' => (setDigitF_invalid m' (fun hv => h hv.1) pat dot).trans hm') rfl text

/-- A digit write leaves the rows of the other display. 40_buffer_codec.md R80. -/
theorem setDigitF_read_other {m : Memory} (hm : m.wf) {d : Byte} {r : BitVec 4} (h : r.toNat / 8 ≠ d.toNat)
    (p pat : Byte) (dot : Bool) : (setDigitF m d p pat dot).read r = m.read r := by
  by_cases hv : d < 2 ∧ p < 8
  case neg => rw [setDigitF_invalid m hv]
  obtain ⟨d, rfl⟩ := exists_display hv.1
  obtain ⟨p, rfl⟩ := exists_position hv.2
  obtain ⟨e, q, rfl⟩ := exists_row r
  rw [row_div, toNat_setWidth_display, ne_eq, BitVec.toNat_inj] at h
  rw [setDigitF_read_row hm, if_neg h]

theorem writeStringF_read_other (c : Config) {m : Memory} (hm : m.wf) {d : Byte} {r : BitVec 4}
    (h : r.toNat / 8 ≠ d.toNat) (text : List Byte) : (writeStringF c m d text).read r = m.read r := by
  have hkeep : (writeStringF c m d text).wf ∧ (writeStringF c m d text).read r = m.read r :=
    writeStringF_induct (P := fun m' => m'.wf ∧ m'.read r = m.read r) c
      (fun m' p pat dot ⟨hw, hr⟩ => ⟨setDigitF_wf hw d p pat dot, (setDigitF_read_other hw h p pat dot).trans hr⟩)
      ⟨hm, rfl⟩ text
  exact hkeep.2

/-- Settles O21: the digit writes of writeString go to its own display, and nowhere on an invalid one. -/
theorem writeStringShowsATextOnOneDisplay : Obligations.WriteStringShowsATextOnOneDisplay :=
  ⟨fun _ _ hw hl => decode_writeString hw hl, fun d text s hs =>
    ⟨rfl, writeStringF_wf s.cfg hs d text, fun hd => writeStringF_invalid s.cfg s.buf hd text,
      fun _ hr => writeStringF_read_other s.cfg hs hr text⟩⟩

/-! ## The loop of the pseudocode -/

theorem recognized_eq_some_iff {c : Config} {ch : Byte} {g : BitVec 7} :
    recognized c ch = some g ↔ ch ≠ dotChar ∧ glyph c ch = some g := by
  simp [recognized]

/-- A recognized character takes the slot, with the dot exactly where one follows, and that dot is consumed. -/
theorem writeChars_digit (c : Config) (d : Byte) {ch : Byte} {g : BitVec 7} (text : List Byte) {slot : Nat}
    (hs : slot < 8) (h : recognized c ch = some g) (m : Memory) :
    writeChars c d (ch :: text) slot m =
      writeChars c d (text.drop (if text.head? = some dotChar then 1 else 0)) (slot + 1)
        (setDigitF m d (BitVec.ofNat 8 slot) (g.setWidth 8) (decide (text.head? = some dotChar))) := by
  by_cases hd : text.head? = some dotChar
  · obtain ⟨rest, rfl⟩ := List.head?_eq_some_iff.mp hd
    simpa using writeChars_dotted c d rest hs h m
  · simpa [hd] using writeChars_plain c d text hs h hd m

theorem lt_length_and_getD_eq_iff {text : List Byte} {i : Nat} {ch : Byte} :
    i < text.length ∧ text.getD i 0 = ch ↔ text[i]? = some ch := by
  by_cases hi : i < text.length <;> simp [hi]

/-- From index `i` on, with rounds enough for the rest of the text, the loop is the scan of that rest.
41_device_state.md R101. -/
theorem textLoop_eq_writeChars (c : Config) (d : Byte) (text : List Byte) {fuel i : Nat}
    (hf : text.length ≤ i + fuel) (slot : Nat) (m : Memory) :
    textLoop c d text fuel i slot m = writeChars c d (text.drop i) slot m := by
  induction fuel generalizing i slot m with
  | zero => rw [textLoop, List.drop_eq_nil_of_le (by omega), writeChars_nil]
  | succ fuel ih =>
    rw [textLoop]
    by_cases hi : i < text.length
    case neg => rw [if_neg (fun h => hi h.1), List.drop_eq_nil_of_le (Nat.not_lt.mp hi), writeChars_nil]
    by_cases hs : slot < 8
    case neg => rw [if_neg (fun h => hs h.2), writeChars_full c d _ (Nat.not_lt.mp hs)]
    rw [if_pos ⟨hi, hs⟩, List.drop_eq_getElem_cons hi, List.getD_eq_getElem text 0 hi]
    cases hc : recognized c text[i] with
    | none => simp only [writeChars_skip c d _ hs hc, ih (i := i + 1) (by omega)]
    | some g =>
      simp only [writeChars_digit c d _ hs hc, List.head?_drop, List.drop_drop, lt_length_and_getD_eq_iff,
        decide_eq_true_eq]
      by_cases hd : text[i + 1]? = some dotChar
      · simp only [hd, if_true, ih (i := i + 2) (by omega)]
      · simp only [hd, if_false, Nat.add_zero, ih (i := i + 1) (by omega)]

/-- Settles O22: the scan from index 0 with a round for each character. -/
theorem writeStringFollowsThePseudocode : Obligations.WriteStringFollowsThePseudocode := fun c _ d text =>
  ⟨(textLoop_eq_writeChars c d text (i := 0) (Nat.zero_add _).ge 0 _).symm, fun _ _ => recognized_eq_some_iff⟩

/-! ## The corner cases -/

/-- Where recognized characters fill the slots, all that is read of what follows them is whether it begins with a dot.
41_device_state.md R102. -/
theorem writeChars_append_of_full (c : Config) (d : Byte) {full rest rest' : List Byte}
    (hfull : ∀ ch ∈ full, (recognized c ch).isSome) (hdot : rest.head? = some dotChar ↔ rest'.head? = some dotChar)
    {slot : Nat} (hs : slot + full.length = 8) (m : Memory) :
    writeChars c d (full ++ rest) slot m = writeChars c d (full ++ rest') slot m := by
  induction full generalizing slot m with
  | nil =>
    have h8 : 8 ≤ slot := hs.ge
    rw [writeChars_full c d _ h8, writeChars_full c d _ h8]
  | cons ch full ih =>
    rw [List.length_cons] at hs
    obtain ⟨hch, htail⟩ := List.forall_mem_cons.mp hfull
    obtain ⟨g, hg⟩ := Option.isSome_iff_exists.mp hch
    rw [List.cons_append, List.cons_append, writeChars_digit c d _ (by omega) hg, writeChars_digit c d _ (by omega) hg]
    cases full with
    | nil =>
      have h8 : 8 ≤ slot + 1 := hs.ge
      simp only [List.nil_append, hdot, writeChars_full c d _ h8]
    | cons y ys =>
      have hy : y ≠ dotChar := by
        rintro rfl
        simp at htail
      simpa [hy] using ih htail (by omega) _

/-- Settles O23: a dot is read only right after a recognized character, and nothing is read once the slots are
filled. -/
theorem writeStringCornerCases : Obligations.WriteStringCornerCases := by
  intro c m d text
  have dropped (text : List Byte) {slot : Nat} (hs : slot < 8) (m : Memory) :
      writeChars c d (dotChar :: text) slot m = writeChars c d text slot m :=
    writeChars_skip c d text hs (recognized_dotChar c) m
  refine ⟨?empty, ?leading, fun ch g hg => ?second, fun ch g x hg hx hxd ht => ?afterSkipped,
    fun full hl hfull => ⟨?eighthDot, fun ht => ?ninth⟩⟩ <;> unfold writeStringF
  case empty => exact writeChars_nil c d 0 _
  case leading => exact dropped text (by decide) _
  case second =>
    rw [writeChars_dotted c d _ (by decide) hg, writeChars_dotted c d _ (by decide) hg, dropped text (by decide)]
  case afterSkipped =>
    have hh : (x :: dotChar :: text).head? ≠ some dotChar := by simpa using hxd
    rw [writeChars_plain c d _ (by decide) hg hh, writeChars_plain c d _ (by decide) hg ht,
      writeChars_skip c d _ (by decide) hx, dropped text (by decide)]
  case eighthDot => exact writeChars_append_of_full c d hfull (by simp) (by omega) _
  case ninth =>
    simpa using writeChars_append_of_full c d (rest' := []) hfull (iff_of_false ht (by simp)) (by omega : 0 + _ = 8) _

end Sys2Proof.Machine
end

section
/-! SUPPORT. The commands over the bus whose transactions are answered, by the states the statements name.
41_device_state.md R103 to R106. -/

namespace Sys2Proof.Machine

/-- A command whose transactions were answered ends with the status of the answer. 60_exceptions.md R143. -/
theorem finish_answered (before : State) {o : BusReply × State} (h : o.1 ≠ .never) :
    finish before o = withResult (if o.1 = .ok then .ok else .transportError) o.2 := by
  rcases finish_cases before o with ⟨hr, heq⟩ | ⟨hr, heq⟩ | ⟨hr, -⟩
  · rw [heq, if_pos hr]; rfl
  · rw [heq, if_neg (by simp [hr])]; rfl
  · exact absurd hr h

/-- The state after the flush's transaction. 30_encoding.md R74. -/
theorem flushBuffer_snd (s : State) : (flushBuffer s).2 = withBus (0x00 :: rowsOf s.buf) s := by
  rw [flushBuffer, busWrite_snd, memRead_eq_rowsOf]
  rfl

/-- The state after a brightness transaction: the level stored and sent. 41_device_state.md R104. -/
theorem applyBrightness_snd (lv : BitVec 4) (s : State) :
    (applyBrightness lv s).2 = withBus [s.cfg.brightBase ||| lv.setWidth 8] { s with brightness := lv } :=
  busWrite_snd (.brightness lv) (storeBrightness lv s)

/-- Settles O25: one transaction and the status of its answer. -/
theorem flushSendsTheWholeBuffer : Obligations.FlushSendsTheWholeBuffer := by
  refine ⟨decode_oneWord (x := .flush) rfl (by decide), fun s hn => ?_⟩
  rw [exec_eq, afterCommand, finish_answered s hn, flushBuffer_snd]
  rfl

/-- The clamp as a number. 41_device_state.md R105. -/
theorem clampLevel_toNat (level : Byte) : (clampLevel level).toNat = min level.toNat 15 := by
  unfold clampLevel
  split <;> bv_omega

/-- Settles O26: one transaction, after the clamped level is stored. -/
theorem setBrightnessStoresAndSendsTheClampedLevel : Obligations.SetBrightnessStoresAndSendsTheClampedLevel := by
  refine ⟨fun w ds hw => decode_oneWord (x := .setBrightness) hw (by decide) ds,
    fun level s hn => ⟨clampLevel level, clampLevel_toNat level, ?_⟩⟩
  rw [exec_eq, afterCommand, finish_answered s hn, applyBrightness_snd]
  rfl

/-- configure by the answers to its first two transactions. 41_device_state.md R106. -/
theorem configureChip_eq (s : State) :
    configureChip s =
      if s.nextReply = .ok then
        if (withBus [s.cfg.oscOnCmd] s).nextReply = .ok then
          applyBrightness 15 (withBus [s.cfg.dispOnCmd] (withBus [s.cfg.oscOnCmd] s))
        else busWrite .displayEnable (withBus [s.cfg.oscOnCmd] s)
      else busWrite .oscillatorEnable s := by
  have h := configureChip_cases s
  simp only [busWrite_snd, Payload.bytes] at h
  rcases h with ⟨h1, heq⟩ | ⟨h1, h2, heq⟩ | ⟨h1, h2, heq⟩
  · rw [heq, if_neg h1]
  · rw [heq, if_pos h1, if_neg h2]
  · rw [heq, if_pos h1, if_pos h2]
    rfl

/-- A command that ends with a transaction answered `err`. 60_exceptions.md R143. -/
theorem finish_busWrite_err (before : State) {p : Payload} {s : State} (h : s.nextReply = .err) :
    finish before (busWrite p s) = withResult .transportError (withBus (p.bytes s.cfg) s) := by
  rw [finish_answered before (by simp [h]), busWrite_reply, busWrite_snd, h]
  rfl

/-- Settles O27: configure ends with its first, second or third transaction, and with the status of that one's
answer. -/
theorem configureStopsAtTheFirstFailure : Obligations.ConfigureStopsAtTheFirstFailure := by
  refine ⟨decode_oneWord (x := .configure) rfl (by decide), fun s => ⟨fun h => ?first, ?_⟩⟩
  case first =>
    rw [exec_eq, afterCommand, configureChip_eq, if_neg (by simp [h]), finish_busWrite_err s h]
    rfl
  rintro s1 rfl h
  refine ⟨fun h1 => ?second, ?_⟩
  case second =>
    rw [exec_eq, afterCommand, configureChip_eq, if_pos h, if_neg (by simp [h1]), finish_busWrite_err s h1]
    rfl
  rintro s2 rfl h1 h2
  rw [exec_eq, afterCommand, configureChip_eq, if_pos h, if_pos h1, finish_answered s h2, applyBrightness_snd]
  rfl

end Sys2Proof.Machine
end

section
/-! SUPPORT. The commands that arm a fade, and the elapsed test. 42_fade_controller.md R121, R125, R126. -/

namespace Sys2Proof.Machine

theorem elapsed_iff {s : State} : elapsed s = true ↔ s.delay ≤ s.now - s.last := decide_eq_true_iff

/-- Settles O33: the subtraction of two time values is modulo 2^32. -/
theorem elapsedTimeIsModular : Obligations.ElapsedTimeIsModular := by
  intro s
  rw [elapsed_iff, BitVec.le_def, BitVec.toNat_sub]
  omega

/-- A start of a block that is not Idle drives (OK, 1) and does nothing else. 42_fade_controller.md R121, R126. -/
theorem afterCommand_start_ignored {i : Instr} {s : State} (hs : s.fadeState ≠ .idle)
    (hi : ∃ d, i = .fadeStart d ∨ i = .fadeBlocking d) :
    afterCommand i s = { s with outputs := s.outputs ++ [.result .ok true] } := by
  have hf : fading s = true := bne_iff_ne.mpr hs
  obtain ⟨d, rfl | rfl⟩ := hi <;> rw [afterCommand, if_neg hs, driveResult, hf]

/-- Settles O32: the two branches of fadeStart. -/
theorem fadeStartArmsAnIdleBlockOnly : Obligations.FadeStartArmsAnIdleBlockOnly := by
  refine ⟨fun d ds => decode_accepts (x := .fadeStart) rfl (Nat.le_add_left 2 ds.length),
    fun d s => ⟨fun hs => ?_, fun hs => ?_⟩⟩
  · rw [exec_eq, afterCommand, if_pos hs]
    rfl
  · rw [exec_eq, afterCommand_start_ignored hs ⟨d, .inl rfl⟩]

/-- Settles O36: the two branches of fadeBlocking. -/
theorem fadeBlockingArmsAndClosesThePort : Obligations.FadeBlockingArmsAndClosesThePort := by
  refine ⟨fun d ds => decode_accepts (x := .fadeBlocking) rfl (Nat.le_add_left 2 ds.length),
    fun d s => ⟨fun hs => ?_, fun hs => ?_⟩⟩
  · rw [exec_eq, afterCommand, if_pos hs]
    exact ⟨_, rfl, rfl, rfl⟩
  · rw [exec_eq, afterCommand_start_ignored hs ⟨d, .inr rfl⟩]

/-- Settles O42: of the courses of a command only a fade step and an arming write the fade's registers. -/
theorem onlyTicksMoveAnArmedFade : Obligations.OnlyTicksMoveAnArmedFade := by
  intro i s t hs hi h
  refine ⟨?same, fun hd => ?ignored⟩
  case same =>
    cases commandCourse_of_exec h with
    | buffer | ignored => simp [SameFade]
    | bus o _ _ hf _ => simpa [SameFade, finish_frame] using hf
    | fadeStep => exact absurd rfl hi
    | armed hidle | armedBlocking hidle => exact absurd hidle hs
  case ignored =>
    rw [exec_eq, Host.Outcome.next.injEq] at h
    rw [← h, afterCommand_start_ignored hs hd]

end Sys2Proof.Machine
end

section
/-! SUPPORT. The fade step by the next-state table, and the tick that makes it. 42_fade_controller.md R120, R122 to
R124, R129. -/

namespace Sys2Proof.Machine

/-! ## The next-state table -/

/-- Where a fade stands: its state and the brightness its next step applies. 10_state.md R25, R26. -/
abbrev FadePosition := FadeState × BitVec 4

/-- Where the fade of a state stands. -/
def State.position (s : State) : FadePosition := (s.fadeState, s.step)

/-- The next-state table: FadingOut counts down to 0 and turns to FadingIn, which counts up to 15 and ends Idle.
42_fade_controller.md R120. -/
def nextPosition (p : FadePosition) : FadePosition :=
  if p.1 = .fadingOut then
    if p.2 = 0 then (.fadingIn, 0) else (p.1, p.2 - 1)
  else
    if p.2 = 15 then (.idle, p.2) else (p.1, p.2 + 1)

/-- The payloads of a fade step made at a position: its brightness, and at the dark point the buffer's rows.
42_fade_controller.md R123, R124. -/
def stepPayloads (c : Config) (rows : List Byte) (p : FadePosition) : List (List Byte) :=
  Payload.bytes c (.brightness p.2) ::
    if p.1 = .fadingOut ∧ p.2 = 0 then [Payload.bytes c (.ramWrite rows)] else []

/-- A fade step whose brightness transaction is answered advances from the state after that transaction.
42_fade_controller.md R123. -/
theorem fadeStepF_eq_advance {s : State} (h : s.nextReply ≠ .never) :
    fadeStepF s = advance s.nextReply (applyBrightness s.step (markTransition s)).2 := by
  have hr : (applyBrightness s.step (markTransition s)).1 = s.nextReply := rfl
  cases hn : s.nextReply with
  | never => exact absurd hn h
  | ok | err => simp only [fadeStepF, hr, hn]

theorem BusReply.both_ne_never {r r' : BusReply} (h : r ≠ .never) (h' : r' ≠ .never) : r.both r' ≠ .never := by
  cases r with
  | ok => exact h'
  | never => exact absurd rfl h
  | err =>
    cases r' with
    | never => exact absurd rfl h'
    | ok | err => exact nofun

/-- A fade step that came to an answer has moved the fade by the next-state table. 42_fade_controller.md R120. -/
theorem fadeStepF_position {s : State} (h : (fadeStepF s).1 ≠ .never) :
    (fadeStepF s).2.position = nextPosition s.position := by
  rw [State.position, nextPosition, State.position]
  rcases fadeStepF_cases s with ⟨-, heq⟩ | ⟨-, hf, hs, heq⟩ | ⟨-, hf, hs, heq⟩ | ⟨-, hf, hs, heq⟩ |
    ⟨-, hf, hs, heq⟩
  · exact absurd (by rw [heq]) h
  · rw [if_pos hf, if_pos hs]
    rcases handoff_cases s.nextReply (applyBrightness s.step (markTransition s)).2 with ⟨hn, heq'⟩ | ⟨-, heq'⟩
    · exact absurd (by rw [heq, heq', flushBuffer_reply, hn]) h
    · rw [heq, heq']
  · rw [heq, if_pos hf, if_neg hs]
    rfl
  · rw [heq, if_neg hf, if_pos hs]
    rfl
  · rw [heq, if_neg hf, if_neg hs]
    rfl

/-- An environment that answers every listed transaction answers a fade step, and goes on to answer.
70_reset_and_hazards.md R163. -/
theorem AllAnswered.fadeStepF {s : State} (h : AllAnswered s) :
    (fadeStepF s).1 ≠ .never ∧ AllAnswered (fadeStepF s).2 := by
  have hn : s.nextReply ≠ .never := nextReply_answered h
  have ha : AllAnswered (applyBrightness s.step (markTransition s)).2 :=
    busWrite_allAnswered (s := storeBrightness s.step (markTransition s)) h _
  rcases fadeStepF_cases s with ⟨hnever, -⟩ | ⟨-, -, -, heq⟩ | ⟨-, -, -, heq⟩ | ⟨-, -, -, heq⟩ |
    ⟨-, -, -, heq⟩
  case inl => exact absurd hnever hn
  case inr.inl =>
    have hn' := nextReply_answered ha
    rcases handoff_cases s.nextReply (applyBrightness s.step (markTransition s)).2 with ⟨hnever, -⟩ | ⟨-, heq'⟩
    · exact absurd hnever hn'
    · rw [heq, heq']
      exact ⟨BusReply.both_ne_never hn hn', busWrite_allAnswered ha (.ramWrite [])⟩
  all_goals rw [heq]; exact ⟨hn, ha⟩

/-! ## Ticks -/

theorem afterCommand_fadeTick_idle {s : State} (hs : s.fadeState = .idle) :
    afterCommand .fadeTick s = driveResult .ok s := if_pos hs

theorem afterCommand_fadeTick_early {s : State} (he : ¬ s.delay ≤ s.now - s.last) :
    afterCommand .fadeTick s = driveResult .ok s := by
  rw [afterCommand, if_neg (mt elapsed_iff.mp he), ite_self]

/-- A tick of an armed block at its time makes a fade step. 42_fade_controller.md R122. -/
theorem afterCommand_fadeTick_step {s : State} (hs : s.fadeState ≠ .idle) (he : s.delay ≤ s.now - s.last) :
    afterCommand .fadeTick s = finish s (fadeStepF s) := by
  rw [afterCommand, if_neg hs, if_pos (elapsed_iff.mpr he)]

/-- Settles O34: the two branches of fadeTick without a fade step. -/
theorem tickWithoutAStepChangesNothing : Obligations.TickWithoutAStepChangesNothing := by
  refine ⟨decode_oneWord (x := .fadeTick) rfl (by decide), fun s => ⟨fun hs => ?_, fun hs he => ?_⟩⟩
  · rw [exec_eq, afterCommand_fadeTick_idle hs, driveResult, fading, hs]
    rfl
  · rw [exec_eq, afterCommand_fadeTick_early he, driveResult, fading, bne_iff_ne.mpr hs]

theorem statusOf_singleton {r : BusReply} (h : r ≠ .never) :
    statusOf [r] = if r = .ok then .ok else .transportError := by
  cases r with
  | never => exact absurd rfl h
  | ok | err => rfl

/-- The status of two answered transactions is that of their answers together. 42_fade_controller.md R123. -/
theorem statusOf_pair {r r' : BusReply} (h : r ≠ .never) (h' : r' ≠ .never) :
    statusOf [r, r'] = if r.both r' = .ok then .ok else .transportError := by
  cases r' with
  | never => exact absurd rfl h'
  | ok | err =>
    cases r with
    | never => exact absurd rfl h
    | ok | err => rfl

/-- Settles O35: each row of the next-state table, from the state after the brightness transaction. -/
theorem tickStepsByTheNextStateTable : Obligations.TickStepsByTheNextStateTable := by
  rintro s a he hn ha
  have ha' : (applyBrightness s.step (markTransition s)).2 = a := ha ▸ applyBrightness_snd s.step (markTransition s)
  have hfade : a.fadeState = s.fadeState := by rw [ha]; rfl
  have hstep : a.step = s.step := by rw [ha]; rfl
  have hbuf : a.buf = s.buf := by rw [ha]; rfl
  have tick (o : BusReply × State) (hs : s.fadeState ≠ .idle) (ho : advance s.nextReply a = o)
      (hr : o.1 ≠ .never) :
      exec .fadeTick s = .next (withResult (if o.1 = .ok then .ok else .transportError) o.2) := by
    rw [exec_eq, afterCommand_fadeTick_step hs he, fadeStepF_eq_advance hn, ha', ho, finish_answered s hr]
  refine ⟨fun hf hs => ?out, fun hf hs hn' => ?dark, fun hf hs => ?up, fun hf hs => ?last⟩
  case dark =>
    have hh : advance s.nextReply a = handoff s.nextReply a := by
      rw [advance, hfade, hstep, if_pos hf, if_pos hs]
    rcases handoff_cases s.nextReply a with ⟨hnever, -⟩ | ⟨-, heq⟩
    · exact absurd hnever hn'
    · rw [tick _ (by simp [hf]) (hh.trans heq) (BusReply.both_ne_never hn hn'), statusOf_pair hn hn',
        flushBuffer_snd, hbuf]
  all_goals
    rw [statusOf_singleton hn]
    refine tick (s.nextReply, _) (by simp [hf]) ?_ hn
    rw [advance, hfade, hstep]
  case out => rw [if_pos hf, if_neg hs]
  case up => rw [if_neg (by simp [hf]), if_neg hs]
  case last => rw [if_neg (by simp [hf]), if_pos hs]

/-- The registers after a tick of an armed block do not depend on the answers. 42_fade_controller.md R122, R129. -/
theorem tick_registers {s t : State} (h : exec .fadeTick s = .next t) (ha : AllAnswered s)
    (hs : s.fadeState ≠ .idle) :
    (t.position, t.last, t.brightness, t.hung) =
      if s.delay ≤ s.now - s.last then (nextPosition s.position, s.now, s.step, s.hung)
      else (s.position, s.last, s.brightness, s.hung) := by
  rw [exec_eq, Host.Outcome.next.injEq] at h
  subst h
  split_ifs with he
  · have hn : (fadeStepF s).1 ≠ .never := ha.fadeStepF.1
    have hhung : (fadeStepF s).2.hung = s.hung := by simp [fadeStepF_frame]
    obtain ⟨hl, hb⟩ := fadeStepF_applies s
    rw [afterCommand_fadeTick_step hs he, finish_answered s hn, ← fadeStepF_position hn, ← hl, ← hb, ← hhung]
    rfl
  · rw [afterCommand_fadeTick_early he]
    rfl

/-- What no tick changes. 42_fade_controller.md R122. -/
theorem tick_frame {s t : State} (h : exec .fadeTick s = .next t) :
    t.buf = s.buf ∧ t.delay = s.delay ∧ t.blocking = s.blocking ∧ t.blockErr = s.blockErr ∧ SamePorts s t := by
  cases commandCourse_of_exec h with
  | buffer _ hi => simp [isCodec] at hi
  | bus o hi => simp at hi
  | fadeStep => simp [finish_frame, fadeStepF_frame, SamePorts]
  | ignored => simp [SamePorts]

/-- Settles O40: a fade step's registers come from the next-state table, whatever is answered. -/
theorem transportErrorsDoNotChangeTheCourse : Obligations.TransportErrorsDoNotChangeTheCourse := by
  intro s t u os rs n blocked ha hrs hs ht hu
  have registers := (tick_registers hu hrs hs).trans (tick_registers ht ha hs).symm
  simp only [State.position, Prod.mk.injEq] at registers
  obtain ⟨⟨hf, hstep⟩, hlast, hbr, hhung⟩ := registers
  obtain ⟨tbuf, tdelay, tblocking, -, t1, t2, t3, t4, t5, t6⟩ := tick_frame ht
  obtain ⟨ubuf, udelay, ublocking, ublockErr, u1, u2, u3, u4, u5, u6⟩ := tick_frame hu
  exact ⟨⟨hf, hstep, hlast, udelay.trans tdelay.symm, ublocking.trans tblocking.symm, ublockErr⟩, hbr,
    ubuf.trans tbuf.symm, hhung, u1.trans t1.symm, u2.trans t2.symm, u3.trans t3.symm, u4.trans t4.symm,
    u5.trans t5.symm, u6.trans t6.symm⟩

/-- The end of a command over the bus sends no further payload. -/
theorem busBytes_finish {s : State} {o : BusReply × State} {evs : List Output} (h : BusPart s o evs) :
    busBytes (newOutputs s (finish s o)) = busBytes evs := by
  rcases finish_outputs h with ⟨-, -, heq⟩ | ⟨-, -, heq⟩ <;> rw [heq]
  rw [busBytes_append]
  exact List.append_nil _

/-- A tick at the dark point sends brightness 0 and then the rows. 42_fade_controller.md R124. -/
theorem AtDarkPoint.busBytes_tick {s : State} (h : AtDarkPoint s) :
    busBytes (newOutputs s (afterCommand .fadeTick s)) = [[s.cfg.brightBase], 0x00 :: rowsOf s.buf] := by
  obtain ⟨hf, hs, he, hn⟩ := h
  obtain ⟨evs, hpart, hbytes⟩ := fadeStepF_payloads s
  rw [afterCommand_fadeTick_step (by simp [hf]) he, busBytes_finish hpart, hbytes, if_pos ⟨hf, hs, hn⟩, hs,
    Payload.bytes, encodeBrightness_zero]
  rfl

/-- Settles O41: away from the dark point a tick writes no RAM; at it, the flush follows the brightness. -/
theorem handoffFlushStandsAtTheDarkPoint : Obligations.HandoffFlushStandsAtTheDarkPoint := by
  intro s t h
  rw [exec_eq, Host.Outcome.next.injEq] at h
  subst h
  refine ⟨⟨fun ⟨bytes, hm, hl⟩ => ?only, fun hd => ?there⟩, AtDarkPoint.busBytes_tick⟩
  case only =>
    by_contra hd
    obtain ⟨evs, ho, hshort⟩ := (fadeCourse_tick s).noRamWrite hd
    rw [newOutputs_of_append ho] at hm
    exact hshort bytes hm hl
  case there =>
    rw [AtDarkPoint.busBytes_tick hd]
    exact ⟨_, .tail _ (.head _), by simp [rowsOf]⟩

end Sys2Proof.Machine
end

section
/-! SUPPORT. The internal steps of a blocking fade, and when a step moves a fade. 42_fade_controller.md R125 to R127. -/

namespace Sys2Proof.Machine

/-! ## The end of an internal step -/

/-- What is driven after an internal step whose fade step led to `s`: at the end of the fade the result, with the status
of the whole command. 42_fade_controller.md R126. -/
def endResult (e : Bool) (s : State) : List Output :=
  if s.fadeState = .idle then [.result (if e then .transportError else .ok) false] else []

theorem endInternalStep_outputs (e : Bool) (s : State) :
    (endInternalStep e s).outputs = s.outputs ++ endResult e s := by
  by_cases hs : s.fadeState = .idle <;> simp [endInternalStep, endResult, fading, hs]

/-- A result is no transaction. -/
theorem busBytes_endResult (e : Bool) (s : State) : busBytes (endResult e s) = [] := by
  unfold endResult
  split <;> rfl

theorem filter_endResult (e : Bool) (s : State) : (endResult e s).filter Output.isResult = endResult e s := by
  unfold endResult
  split <;> rfl

/-- The end of an internal step writes `blocking`, `blockErr` and the record only. 42_fade_controller.md R127. -/
theorem endInternalStep_eq (e : Bool) (s : State) :
    endInternalStep e s =
      { s with
        outputs := (endInternalStep e s).outputs
        blocking := (endInternalStep e s).blocking
        blockErr := (endInternalStep e s).blockErr } := by
  unfold endInternalStep
  split <;> rfl

/-- `blocking` is cleared exactly at the end of the fade. 42_fade_controller.md R127. -/
theorem endInternalStep_blocking (e : Bool) {s : State} (hb : s.blocking = true) :
    (endInternalStep e s).blocking = decide (s.fadeState ≠ .idle) := by
  unfold endInternalStep
  split_ifs with hs <;> simp [hs, hb]

/-- The error stays noted until the fade ends. 42_fade_controller.md R126. -/
theorem endInternalStep_blockErr (e : Bool) {s : State} (hs : s.fadeState ≠ .idle) :
    (endInternalStep e s).blockErr = e := by
  rw [endInternalStep, if_neg hs]

/-! ## Internal steps -/

theorem internalStep_early {s : State} (he : ¬ s.delay ≤ s.now - s.last) : internalStep s = s := by
  rw [internalStep, if_neg (mt elapsed_iff.mp he)]

theorem internalStep_answered {s : State} (he : s.delay ≤ s.now - s.last) (hn : (fadeStepF s).1 ≠ .never) :
    internalStep s = endInternalStep (s.blockErr || (fadeStepF s).1 == .err) (fadeStepF s).2 := by
  rcases internalStep_cases s with ⟨hel, -⟩ | ⟨-, hn', -⟩ | ⟨-, -, heq⟩
  · exact absurd (elapsed_iff.mpr he) (by simp [hel])
  · exact absurd hn' hn
  · exact heq

/-- What no internal step changes: it takes no command. 42_fade_controller.md R127. -/
theorem internalStep_frame (s : State) :
    (internalStep s).received = s.received ∧ (internalStep s).offered = s.offered ∧ (internalStep s).buf = s.buf ∧
      (internalStep s).delay = s.delay ∧ (internalStep s).now = s.now ∧ (internalStep s).turns = s.turns := by
  rcases internalStep_cases s with ⟨-, heq⟩ | ⟨-, -, heq⟩ | ⟨-, -, heq⟩ <;> rw [heq]
  · simp
  · simp [fadeStepF_frame]
  · rw [endInternalStep_eq]
    simp [fadeStepF_frame]

/-- A tick whose fade step is answered ends with a result. 42_fade_controller.md R122. -/
theorem afterCommand_fadeTick_answered {s : State} (hs : s.fadeState ≠ .idle) (he : s.delay ≤ s.now - s.last)
    (hn : (fadeStepF s).1 ≠ .never) :
    afterCommand .fadeTick s = withResult (if (fadeStepF s).1 = .ok then .ok else .transportError) (fadeStepF s).2 := by
  rw [afterCommand_fadeTick_step hs he, finish_answered s hn]

/-- Settles O37: an internal step made in time is a fade step, as a tick's, with an end of its own. -/
theorem blockingStepsInsteadOfTakingCommands : Obligations.BlockingStepsInsteadOfTakingCommands := by
  rintro s u t hh hb hr hu h
  have hhung : u.hung = none := by rw [hu, takeTurn_hung, hh]
  have hblocking : u.blocking = true := by rw [hu, takeTurn_blocking, hb]
  have hbuf : u.buf = s.buf := hu ▸ takeTurn_buf s
  have hdelay : u.delay = s.delay := hu ▸ takeTurn_delay s
  have hfade : u.fadeState = s.fadeState := hu ▸ takeTurn_fadeState s
  have herr : u.blockErr = s.blockErr := hu ▸ takeTurn_blockErr s
  have hout : u.outputs = s.outputs := hu ▸ takeTurn_outputs s
  rw [step_of_run hr, ← hu, runBlock_blocking hhung hblocking, Host.Outcome.next.injEq] at h
  subst h
  obtain ⟨frec, foff, fbuf, fdelay, fnow, -⟩ := internalStep_frame u
  refine ⟨frec, foff, fbuf.trans hbuf, fdelay.trans hdelay, fnow, internalStep_early, fun he hs hn => ?_⟩
  rw [← hfade] at hs
  obtain ⟨evs, hpart⟩ := fadeStepF_part u
  have hend := internalStep_answered he hn
  have hnew : newOutputs s (internalStep u) =
      evs ++ endResult (u.blockErr || (fadeStepF u).1 == .err) (fadeStepF u).2 := by
    apply newOutputs_of_append
    rw [hend, endInternalStep_outputs, hpart.outputs, hout, List.append_assoc]
  refine ⟨⟨_, exec_eq .fadeTick u, ?tick⟩, ?hung, ?blocking, ?results⟩
  case tick =>
    have hbytes : busBytes (newOutputs s (internalStep u)) = busBytes (newOutputs u (afterCommand .fadeTick u)) := by
      rw [afterCommand_fadeTick_step hs he, busBytes_finish hpart, hnew, busBytes_append,
        busBytes_endResult, List.append_nil]
    refine ⟨?_, ?_, ?_, ?_, ?_, ?_, hbytes⟩
    all_goals
      rw [hend, endInternalStep_eq, afterCommand_fadeTick_answered hs he hn]
      rfl
  case hung =>
    rw [hend, endInternalStep_eq]
    simp [fadeStepF_frame, hhung]
  case blocking =>
    rw [hend, endInternalStep_blocking _ (by simp [fadeStepF_frame, hblocking]), endInternalStep_eq]
  case results =>
    rw [hnew, List.filter_append, hpart.noResult, filter_endResult, hend, endInternalStep_eq, endResult, herr]
    simp

/-! ## Moves -/

/-- From `s` to `t` an armed fade stays where it is, or makes a step at its time. 42_fade_controller.md R125. -/
def MovesInTime (s t : State) : Prop :=
  (t.fadeState, t.step, t.last) = (s.fadeState, s.step, s.last) ∨
    (s.delay ≤ s.now - s.last ∧ t.last = s.now ∧ t.delay = s.delay)

theorem movesInTime_internalStep (s : State) : MovesInTime s (internalStep s) := by
  have hdelay : (fadeStepF s).2.delay = s.delay := by simp [fadeStepF_frame]
  have hlast := (fadeStepF_applies s).1
  rcases internalStep_cases s with ⟨-, heq⟩ | ⟨he, -, heq⟩ | ⟨he, -, heq⟩ <;> rw [heq]
  · exact .inl rfl
  · exact .inr ⟨elapsed_iff.mp he, hlast, hdelay⟩
  · rw [endInternalStep_eq]
    exact .inr ⟨elapsed_iff.mp he, hlast, hdelay⟩

theorem movesInTime_afterCommand (i : Instr) {s : State} (hs : s.fadeState ≠ .idle) :
    MovesInTime s (afterCommand i s) := by
  by_cases hi : i = .fadeTick
  · subst hi
    by_cases he : s.delay ≤ s.now - s.last
    · rw [afterCommand_fadeTick_step hs he]
      exact .inr ⟨he, by simp [finish_frame, fadeStepF_applies], by simp [finish_frame, fadeStepF_frame]⟩
    · rw [afterCommand_fadeTick_early he]
      exact .inl rfl
  · obtain ⟨⟨hf, hstep, hlast, -⟩, -⟩ := onlyTicksMoveAnArmedFade i s _ hs hi (exec_eq i s)
    exact .inl (by rw [hf, hstep, hlast])

/-- Settles O44: of the courses of a step, a tick and an internal step alone move an armed fade, at its time. -/
theorem fadeMovesOnlyAfterTheDelay : Obligations.FadeMovesOnlyAfterTheDelay := by
  intro s t hs hr h hne
  have turn : MovesInTime (takeTurn s) t → s.delay ≤ (takeTurn s).now - s.last ∧ t.last = (takeTurn s).now ∧
      t.delay = s.delay := by
    rw [MovesInTime, takeTurn_fadeState, takeTurn_step, takeTurn_last, takeTurn_delay]
    exact fun hm => hm.resolve_left hne
  refine turn ?_
  rcases step_cases h with ⟨ts, hreset, -⟩ | ⟨-, rfl⟩ | ⟨-, -, rfl⟩ | ⟨-, -, -, rfl⟩ | ⟨-, -, why, n, -, rfl⟩ |
    ⟨-, -, i, n, -, rfl⟩
  · exact absurd hreset (hr ts)
  · exact .inl rfl
  · exact movesInTime_internalStep _
  · exact .inl rfl
  · exact .inl rfl
  · exact movesInTime_afterCommand i (s := takeWords n (takeTurn s)) (by simpa using hs)

end Sys2Proof.Machine
end

section
/-! SUPPORT. Whole fades: fade steps made one after another, each at its time and answered, and the 32 that take an
armed block to Idle. 42_fade_controller.md R126 to R128. -/

namespace Sys2Proof.Machine

/-! ## The course of a whole fade -/

/-- FadingOut falls from 15 to 0 in 16 steps. 42_fade_controller.md R120. -/
theorem positions_fadingOut :
    List.iterate nextPosition (.fadingOut, 15) 16 = levels.reverse.map (FadeState.fadingOut, ·) := by decide

theorem iterate_fadingOut : nextPosition^[16] (.fadingOut, 15) = (.fadingIn, 0) := by decide

/-- FadingIn rises from 0 to 15 in 16 steps. 42_fade_controller.md R120. -/
theorem positions_fadingIn :
    List.iterate nextPosition (.fadingIn, 0) 16 = levels.map (FadeState.fadingIn, ·) := by decide

theorem iterate_fadingIn : nextPosition^[16] (.fadingIn, 0) = (.idle, 15) := by decide

/-- A whole fade stands at every level in FadingOut, falling, and then in FadingIn, rising. 42_fade_controller.md
R128. -/
theorem positions_of_wholeFade :
    List.iterate nextPosition (.fadingOut, 15) 32 =
      levels.reverse.map (FadeState.fadingOut, ·) ++ levels.map (FadeState.fadingIn, ·) := by
  rw [List.iterate_add nextPosition _ 16 16, positions_fadingOut, iterate_fadingOut, positions_fadingIn]

/-- A whole fade ends Idle, at 15. 42_fade_controller.md R128. -/
theorem end_of_wholeFade : nextPosition^[32] (.fadingOut, 15) = (.idle, 15) := by
  rw [Function.iterate_add_apply nextPosition 16 16, iterate_fadingOut, iterate_fadingIn]

theorem ne_idle_of_wholeFade {p : FadePosition} (h : p ∈ List.iterate nextPosition (.fadingOut, 15) 32) :
    p.1 ≠ .idle := by
  rw [positions_of_wholeFade, List.mem_append, List.mem_map, List.mem_map] at h
  rcases h with ⟨v, -, rfl⟩ | ⟨v, -, rfl⟩ <;> simp

/-- The payloads of the steps of a whole fade. 42_fade_controller.md R128. -/
theorem payloads_of_wholeFade (c : Config) (rows : List Byte) :
    (List.iterate nextPosition (.fadingOut, 15) 32).flatMap (stepPayloads c rows) = fadePayloads c rows := by
  rw [positions_of_wholeFade]
  rfl

/-! ## Runs of fade steps -/

/-- Fade steps made at these times, each answered, lead from `s` to `t` and drive the events `evs`: a transaction for
each brightness, the handoff flush where the run passes the dark point, and results. 42_fade_controller.md R123. -/
structure FadeRun (times : List Word) (s t : State) (evs : List Output) : Prop where
  outputs : t.outputs = s.outputs ++ evs
  position : t.position = nextPosition^[times.length] s.position
  last : some t.last = (s.last :: times).getLast?
  brightness : some t.brightness =
    (s.brightness :: (List.iterate nextPosition s.position times.length).map Prod.snd).getLast?
  payloads : busBytes evs =
    (List.iterate nextPosition s.position times.length).flatMap (stepPayloads s.cfg (rowsOf s.buf))
  buf : t.buf = s.buf
  delay : t.delay = s.delay
  cfg : t.cfg = s.cfg
  hung : t.hung = s.hung
  answered : AllAnswered t

theorem FadeRun.refl {s : State} (ha : AllAnswered s) : FadeRun [] s s [] :=
  ⟨(List.append_nil _).symm, rfl, rfl, rfl, rfl, rfl, rfl, rfl, rfl, ha⟩

/-- A fade step and then a run of fade steps. -/
theorem FadeRun.cons {now : Word} {times : List Word} {s u t : State} {es fs : List Output}
    (h : FadeRun [now] s u es) (k : FadeRun times u t fs) : FadeRun (now :: times) s t (es ++ fs) := by
  have hpos : u.position = nextPosition s.position := h.position
  have hlast : u.last = now := Option.some.inj h.last
  have hbr : u.brightness = s.step := Option.some.inj h.brightness
  exact
    { outputs := by rw [k.outputs, h.outputs, List.append_assoc]
      position := by rw [k.position, hpos]; rfl
      last := by rw [k.last, hlast]; rfl
      brightness := by rw [k.brightness, hbr, hpos]; rfl
      payloads := by
        rw [busBytes_append, h.payloads, k.payloads, h.cfg, h.buf, hpos, ← List.flatMap_append]
        rfl
      buf := k.buf.trans h.buf
      delay := k.delay.trans h.delay
      cfg := k.cfg.trans h.cfg
      hung := k.hung.trans h.hung
      answered := k.answered }

/-- The transactions of an answered fade step are those of its position. 42_fade_controller.md R123, R124. -/
theorem BusPart.payloads_fadeStepF {s : State} {evs : List Output} (h : BusPart s (fadeStepF s) evs)
    (hn : s.nextReply ≠ .never) : busBytes evs = stepPayloads s.cfg (rowsOf s.buf) s.position := by
  obtain ⟨evs', h', hbytes⟩ := fadeStepF_payloads s
  rw [List.append_cancel_left (h.outputs.symm.trans h'.outputs), hbytes]
  simp only [hn, ne_eq, not_false_eq_true, and_true]
  rfl

/-- An answered fade step, made at the time `now` of a turn, with an end that drives results only and writes besides
only `blocking` and `blockErr`: the end of a tick or of an internal step. -/
theorem FadeRun.one {s u : State} {now : Word} {offered : List Word} {turns : List Turn} (ha : AllAnswered s)
    (hu : u = { s with now := now, offered := offered, turns := turns }) {evs : List Output}
    (hpart : BusPart u (fadeStepF u) evs) {res : List Output} (hres : busBytes res = []) (blocking err : Bool) :
    FadeRun [now] s
      { (fadeStepF u).2 with
        outputs := (fadeStepF u).2.outputs ++ res, blocking := blocking, blockErr := err } (evs ++ res) := by
  have hu' : AllAnswered u := by rw [hu]; exact ha
  have hpay := hpart.payloads_fadeStepF (nextReply_answered hu')
  obtain ⟨hn, hanswered⟩ := hu'.fadeStepF
  obtain ⟨hlast, hbr⟩ := fadeStepF_applies u
  obtain ⟨hbuf, hdelay, -, -, hhung, -, -, -, hcfg, -⟩ := fadeStepF_frame u
  have hpos := fadeStepF_position hn
  have hout := hpart.outputs
  subst hu
  exact
    { outputs := by rw [hout, List.append_assoc]
      position := hpos
      last := congrArg some hlast
      brightness := congrArg some hbr
      payloads := by
        rw [busBytes_append, hres, hpay]
        rfl
      buf := hbuf
      delay := hdelay
      cfg := hcfg
      hung := hhung
      answered := hanswered }

/-- What a whole fade comes to. 42_fade_controller.md R128. -/
theorem FadeRun.whole {times : List Word} {s t : State} {evs : List Output} (h : FadeRun times s t evs)
    (hlen : times.length = 32) (hs : s.position = (.fadingOut, 15)) :
    t.position = (.idle, 15) ∧ t.brightness = 15 ∧ some t.last = times.getLast? ∧
      busBytes evs = fadePayloads s.cfg (rowsOf s.buf) := by
  have hpos := h.position
  have hlast := h.last
  have hbr := h.brightness
  have hpay := h.payloads
  rw [hlen, hs] at hpos hbr hpay
  refine ⟨hpos.trans end_of_wholeFade, ?brightness, ?last, hpay.trans (payloads_of_wholeFade _ _)⟩
  case brightness =>
    rw [positions_of_wholeFade] at hbr
    exact Option.some.inj hbr
  case last =>
    cases times with
    | nil => simp at hlen
    | cons => rw [hlast, List.getLast?_cons_cons]

/-! ## A polled fade -/

/-- A tick at its time is a fade step that ends with a result. 42_fade_controller.md R122. -/
theorem fadeRun_tick {s : State} {now : Word} (ha : AllAnswered s) (hs : s.fadeState ≠ .idle)
    (he : s.delay ≤ now - s.last) :
    ∃ evs, FadeRun [now] s (afterCommand .fadeTick { s with now := now }) evs ∧
      (evs.filter Output.isResult).length = 1 := by
  obtain ⟨evs, hpart⟩ := fadeStepF_part { s with now := now }
  have hn : (fadeStepF { s with now := now }).1 ≠ .never := (AllAnswered.fadeStepF (s := { s with now := now }) ha).1
  rw [afterCommand_fadeTick_answered (s := { s with now := now }) hs he hn]
  refine ⟨_, FadeRun.one ha rfl hpart (res := [.result _ _]) rfl _ _, ?_⟩
  rw [List.filter_append, hpart.noResult]
  rfl

theorem tickAt_cons (now : Word) (times : List Word) (s : State) :
    tickAt (now :: times) s = tickAt times (afterCommand .fadeTick { s with now := now }) := rfl

/-- Ticks each at its time, before the fade is Idle, are a run of fade steps with a result each. 42_fade_controller.md
R122, R128. -/
theorem fadeRun_tickAt (times : List Word) : ∀ {s : State}, AllAnswered s → Spaced s.delay s.last times →
    (∀ p ∈ List.iterate nextPosition s.position times.length, p.1 ≠ .idle) →
      ∃ evs, FadeRun times s (tickAt times s) evs ∧ (evs.filter Output.isResult).length = times.length := by
  induction times with
  | nil => exact fun ha _ _ => ⟨[], FadeRun.refl ha, rfl⟩
  | cons now times ih =>
    rintro s ha ⟨he, hspaced⟩ hpos
    obtain ⟨es, hes, hres⟩ := fadeRun_tick ha (hpos _ (.head _)) he
    have hlast := Option.some.inj hes.last
    obtain ⟨fs, hfs, hres'⟩ := ih hes.answered (by rwa [hes.delay, hlast])
      (by rw [hes.position]; exact fun p hp => hpos p (.tail _ hp))
    refine ⟨es ++ fs, hes.cons hfs, ?_⟩
    rw [List.filter_append, List.length_append, hres, hres', List.length_cons, Nat.add_comm]

/-- Settles O39: 32 ticks are the run of a whole fade. -/
theorem polledFadeRunsToItsEnd : Obligations.PolledFadeRunsToItsEnd := by
  intro s times hf hs hh ha hlen hspaced
  have hpos : s.position = (.fadingOut, 15) := Prod.ext hf hs
  obtain ⟨evs, hrun, hres⟩ := fadeRun_tickAt times ha hspaced
    (by rw [hlen, hpos]; exact fun p => ne_idle_of_wholeFade)
  obtain ⟨hend, hbr, hlast, hpay⟩ := hrun.whole hlen hpos
  obtain ⟨hidle, hstep⟩ := Prod.ext_iff.mp hend
  rw [newOutputs_of_append hrun.outputs]
  exact ⟨hidle, hbr, hstep, hrun.hung.trans hh, hrun.buf, hlast, hpay, hres.trans hlen⟩

/-! ## A blocking fade -/

/-- The block stands in a blocking fade, or at its end, which has driven `evs` so far: `blocking` until Idle, an answer
`err` noted, and no result before the end. 42_fade_controller.md R126, R127. -/
structure BlockingFade (s : State) (evs : List Output) : Prop where
  live : s.hung = none
  blocking : s.blocking = decide (s.fadeState ≠ .idle)
  noted : s.fadeState ≠ .idle → s.blockErr = decide (BusReply.err ∈ busRepliesOf evs)
  results : evs.filter Output.isResult =
    if s.fadeState = .idle then [.result (statusOf (busRepliesOf evs)) false] else []

theorem busRepliesOf_result (st : Status) (f : Bool) : busRepliesOf [.result st f] = [] := rfl

/-- The end of an internal step, with the error of all transactions so far. 42_fade_controller.md R126, R127. -/
theorem blockingFade_endInternalStep {s : State} {e : Bool} {evs : List Output} (hh : s.hung = none)
    (hb : s.blocking = true) (he : e = decide (BusReply.err ∈ busRepliesOf evs))
    (hres : evs.filter Output.isResult = []) : BlockingFade (endInternalStep e s) (evs ++ endResult e s) := by
  by_cases hs : s.fadeState = .idle
  · rw [endInternalStep, endResult, if_pos hs, if_pos hs]
    refine ⟨hh, by simp [hs], fun hne => absurd hs hne, ?_⟩
    rw [List.filter_append, hres, busRepliesOf_append, busRepliesOf_result, List.append_nil, he, statusOf]
    simp [hs, Output.isResult]
  · rw [endInternalStep, endResult, if_neg hs, if_neg hs, List.append_nil]
    exact ⟨hh, by simp [hs, hb], fun _ => he, by simpa [hs] using hres⟩

/-- An internal step at its time is a fade step that ends with a result at the end of the fade.
42_fade_controller.md R127. -/
theorem fadeRun_internalStep {s u : State} {now : Word} {offered : List Word} {turns : List Turn} (ha : AllAnswered s)
    (he : s.delay ≤ now - s.last) (hu : u = { s with now := now, offered := offered, turns := turns })
    {evs : List Output} (hpart : BusPart u (fadeStepF u) evs) :
    internalStep u = endInternalStep (s.blockErr || (fadeStepF u).1 == .err) (fadeStepF u).2 ∧
      FadeRun [now] s (internalStep u)
        (evs ++ endResult (s.blockErr || (fadeStepF u).1 == .err) (fadeStepF u).2) := by
  have hn : (fadeStepF u).1 ≠ .never := (AllAnswered.fadeStepF (by rw [hu]; exact ha)).1
  have hend : internalStep u = endInternalStep (s.blockErr || (fadeStepF u).1 == .err) (fadeStepF u).2 := by
    rw [internalStep_answered (by rw [hu]; exact he) hn, hu]
  refine ⟨hend, ?_⟩
  rw [hend, endInternalStep_eq, endInternalStep_outputs]
  exact FadeRun.one ha hu hpart (busBytes_endResult _ _) _ _

/-- A step of a block in a blocking fade, at its time, is an answered fade step that takes no word.
42_fade_controller.md R127. -/
theorem BlockingFade.step {s : State} {now : Word} {turns : List Turn} {evs : List Output} (h : BlockingFade s evs)
    (hs : s.fadeState ≠ .idle) (ha : AllAnswered s) (he : s.delay ≤ now - s.last)
    (hturns : s.turns = .run now [] :: turns) :
    ∃ t es, Machine.step s = .next t ∧ FadeRun [now] s t es ∧ BlockingFade t (evs ++ es) ∧
      t.received = s.received ∧ t.offered = s.offered ∧ t.turns = turns := by
  have hblocking : s.blocking = true := by simp [h.blocking, hs]
  have hstep : Machine.step s = .next (internalStep (takeTurn s)) := by
    rw [step_of_run (by simp [hturns]), runBlock_blocking (by simp [h.live]) (by simp [hblocking])]
  have hu := (turnSetsTheTimeAndOffersWords s).1 now [] turns hturns
  rw [List.append_nil] at hu
  generalize takeTurn s = u at hstep hu
  have hn : (fadeStepF u).1 ≠ .never := (AllAnswered.fadeStepF (by rw [hu]; exact ha)).1
  obtain ⟨es, hpart⟩ := fadeStepF_part u
  obtain ⟨hend, hrun⟩ := fadeRun_internalStep ha he hu hpart
  obtain ⟨-, -, fblocking, -, fhung, -⟩ := fadeStepF_frame u
  obtain ⟨frec, foff, -, -, -, fturns⟩ := internalStep_frame u
  refine ⟨_, _, hstep, hrun, ?fade, by rw [frec, hu], by rw [foff, hu], by rw [fturns, hu]⟩
  rw [hend, ← List.append_assoc]
  refine blockingFade_endInternalStep (by rw [fhung, hu, h.live]) (by rw [fblocking, hu, hblocking]) ?noted ?results
  case noted =>
    rw [h.noted hs, busRepliesOf_append]
    simp [Bool.beq_eq_decide_eq, hpart.err hn]
  case results =>
    rw [List.filter_append, hpart.noResult, h.results, if_neg hs]
    rfl

/-- A run of a machine goes on from its first step. -/
theorem run_succ {M : Host.Core} (k : Nat) {s u : M.State} (h : M.step s = .next u) : M.run (k + 1) s = M.run k u := by
  rw [Host.Core.run, h]

/-- Steps of a block in a blocking fade, each at its time, before the fade is Idle. 42_fade_controller.md R127, R128. -/
theorem BlockingFade.run (times : List Word) {turns : List Turn} :
    ∀ {s : State} {evs : List Output}, BlockingFade s evs → AllAnswered s → Spaced s.delay s.last times →
      (∀ p ∈ List.iterate nextPosition s.position times.length, p.1 ≠ .idle) →
      s.turns = times.map (Turn.run · []) ++ turns →
        ∃ t es, Host.Core.run core times.length s = .next t ∧ FadeRun times s t es ∧ BlockingFade t (evs ++ es) ∧
          t.received = s.received ∧ t.offered = s.offered ∧ t.turns = turns := by
  induction times with
  | nil => exact fun h ha _ _ hturns => ⟨_, [], rfl, FadeRun.refl ha, by rwa [List.append_nil], rfl, rfl, hturns⟩
  | cons now times ih =>
    rintro s evs h ha ⟨he, hspaced⟩ hpos hturns
    obtain ⟨u, es, hstep, hes, hu, urec, uoff, uturns⟩ := h.step (hpos _ (.head _)) ha he hturns
    have hlast := Option.some.inj hes.last
    obtain ⟨t, fs, hrun, hfs, ht, trec, toff, tturns⟩ := ih hu hes.answered (by rwa [hes.delay, hlast])
      (by rw [hes.position]; exact fun p hp => hpos p (.tail _ hp)) uturns
    exact ⟨t, es ++ fs, (run_succ (M := core) _ hstep).trans hrun, hes.cons hfs, by rwa [← List.append_assoc],
      trec.trans urec, toff.trans uoff, tturns⟩

/-- A block just armed stands at the start of a blocking fade. 42_fade_controller.md R126. -/
theorem blockingFade_armed {s : State} (d : Word) (hh : s.hung = none) :
    BlockingFade { armFade d s with blocking := true, blockErr := false } [] :=
  ⟨hh, rfl, fun _ => rfl, rfl⟩

/-- Settles O38: the steps after the arming are the run of a whole fade. -/
theorem blockingFadeRunsToItsEnd : Obligations.BlockingFadeRunsToItsEnd := by
  intro s d times rest hs hh ha hlen hspaced hturns
  obtain ⟨t, evs, hrun, hfade, hblock, hrec, hoff, htt⟩ := (blockingFade_armed d hh).run times ha hspaced
    (by rw [hlen]; exact fun p => ne_idle_of_wholeFade) hturns
  obtain ⟨hend, hbr, hlast, hpay⟩ := hfade.whole hlen rfl
  obtain ⟨hidle, hstep⟩ := Prod.ext_iff.mp hend
  have hidle : t.fadeState = .idle := hidle
  have hres := hblock.results
  rw [if_pos hidle] at hres
  refine ⟨_, t, exec_eq _ s, ?_, hidle, hbr, hstep, by simp [hblock.blocking, hidle], hblock.live, hlast,
    hfade.delay, hfade.buf, hrec, hoff, htt, ?_⟩
  · rw [afterCommand, if_pos hs, ← hlen]
    exact hrun
  · rw [newOutputs_of_append (s := s) hfade.outputs]
    exact ⟨hpay, hres⟩

end Sys2Proof.Machine
end

section
/-! SUPPORT. The time input: the operations over the bus do not read it, so they commute with a change of it.
60_exceptions.md R153. -/

namespace Sys2Proof.Machine

theorem finish_withNow (before : State) (o : BusReply × State) (t : Word) :
    finish { before with now := t } (o.1, { o.2 with now := t }) = { finish before o with now := t } := by
  obtain ⟨r, u⟩ := o
  cases r <;> rfl

theorem configureChip_withNow (s : State) (t : Word) :
    configureChip { s with now := t } = ((configureChip s).1, { (configureChip s).2 with now := t }) := by
  rw [configureChip_eq s, configureChip_eq]
  by_cases h1 : s.nextReply = .ok
  · by_cases h2 : (withBus [s.cfg.oscOnCmd] s).nextReply = .ok
    · rw [if_pos h1, if_pos h2, if_pos (by exact h1), if_pos (by exact h2)]; rfl
    · rw [if_pos h1, if_neg h2, if_pos (by exact h1), if_neg (by exact h2)]; rfl
  · rw [if_neg h1, if_neg (by exact h1)]; rfl

/-- Settles O52: a command of the buffer writes the buffer only, and the transactions of the others do not read the
time. -/
theorem onlyFadeCommandsReadTheTime : Obligations.OnlyFadeCommandsReadTheTime := by
  intro i s t now htick hstart hblocking h
  by_cases hc : isCodec i = true
  · rw [exec_codec hc, Host.Outcome.next.injEq] at h
    rw [← h]
    exact exec_codec hc { s with now := now }
  rw [exec_eq, Host.Outcome.next.injEq] at h
  rw [← h, exec_eq, Host.Outcome.next.injEq]
  cases i with
  | setDigit | setDigit16 | clearDisplay | clearAll | fillAll => exact absurd rfl hc
  | writeString => rfl
  | flush => exact finish_withNow s (flushBuffer s) now
  | setBrightness level => exact finish_withNow s (applyBrightness (clampLevel level) s) now
  | configure =>
    rw [afterCommand, configureChip_withNow]
    exact finish_withNow s (configureChip s) now
  | fadeTick => exact absurd rfl htick
  | fadeStart d => exact absurd rfl (hstart d)
  | fadeBlocking d => exact absurd rfl (hblocking d)

end Sys2Proof.Machine
end

section
/-! SUPPORT. The abnormal events: an illegal command, an invalid coordinate and a failed transaction. They end in a
status or in nothing, and no step stops the machine. 60_exceptions.md R140 to R146. -/

namespace Sys2Proof.Machine

/-- Settles O10: a ready block takes the words of an illegal command and drives one result. -/
theorem illegalCommandIsDiscarded : Obligations.IllegalCommandIsDiscarded := by
  intro s why n hh hb hr hd
  rw [step_of_ready hh hb hr, takeCommand_illegal hd, ← takeTurn_outputs s, ← takeTurn_fadeState s]
  rfl

/-- Settles O46: the buffer functions keep the buffer where the coordinate is invalid. -/
theorem invalidCoordinateIsSilent : Obligations.InvalidCoordinateIsSilent := by
  intro i s h
  cases i with
  | setDigit | setDigit16 | clearDisplay => rw [exec_codec rfl, codecF_invalid h]
  | writeString d text =>
    rw [exec_eq, afterCommand, writeStringF_invalid s.cfg s.buf (of_decide_eq_true h)]
    rfl
  | _ => cases h

/-- Settles O50: a code for each status and each state. -/
theorem statusAndStateCodes : Obligations.StatusAndStateCodes := by
  refine ⟨rfl, rfl, rfl, fun st => ?_, rfl, rfl, rfl, fun f => ?_⟩
  · cases st <;> decide
  · cases f <;> decide

/-! ## No step stops the machine -/

theorem takeCommand_total (u : State) : ∃ t, takeCommand u = .next t := by
  cases h : decode u.stream with
  | incomplete => exact ⟨_, takeCommand_incomplete h⟩
  | illegal why n => exact ⟨_, takeCommand_illegal h⟩
  | command i n => exact ⟨_, takeCommand_command h⟩

theorem runBlock_total (u : State) : ∃ t, runBlock u = .next t := by
  by_cases hh : u.hung = none
  · cases hb : u.blocking with
    | true => exact ⟨_, runBlock_blocking hh hb⟩
    | false => rw [runBlock_ready hh hb]; exact takeCommand_total u
  · exact ⟨u, runBlock_hung hh⟩

/-- A step with a reset in its turn resets the block and does nothing else. 70_reset_and_hazards.md R160. -/
theorem step_of_reset {s : State} {ts : List Turn} (h : s.turns = .reset :: ts) :
    step s = .next (resetBlock (takeTurn s)) := by
  rw [step, runTurn, h]

/-- Settles O11: a reset is a step, and each course of the block's part has a next state. -/
theorem everyStepAnswersANextState : Obligations.EveryStepAnswersANextState := by
  intro s
  by_cases hr : ∃ ts, s.turns = .reset :: ts
  · obtain ⟨ts, hr⟩ := hr
    exact ⟨_, step_of_reset hr⟩
  · rw [step_of_run (not_exists.mp hr)]
    exact runBlock_total _

/-! ## The status of a command over the bus -/

theorem BusPart.result_notMem {s : State} {o : BusReply × State} {evs : List Output} (h : BusPart s o evs)
    (st : Status) (f : Bool) : .result st f ∉ evs := by
  intro hm
  obtain ⟨p, r, he, -⟩ := h.legal _ hm
  cases he

/-- A result is no reply. -/
theorem busRepliesOf_concat_result (evs : List Output) (st : Status) (f : Bool) :
    busRepliesOf (evs ++ [.result st f]) = busRepliesOf evs := by
  rw [busRepliesOf_append]
  exact List.append_nil _

/-- Settles O29: a command off the bus ends with OK; one over it reports the answers of its own transactions, and one
that hangs, or arms a blocking fade, reports nothing. -/
theorem transportErrorMeansAFailedTransaction : Obligations.TransportErrorMeansAFailedTransaction := by
  intro i s t st f h hm
  rw [exec_eq, Host.Outcome.next.injEq] at h
  subst h
  rcases afterCommand_cases i s with ⟨ho, -⟩ | ⟨o, evs, hpart, heq, -, hi⟩ | ⟨ho, -⟩
  case inl =>
    rw [newOutputs_of_append ho] at hm ⊢
    cases List.mem_singleton.mp hm
    simp [busRepliesOf]
  case inr.inr =>
    rw [newOutputs_of_append (evs := []) (by simpa using ho)] at hm
    cases hm
  case inr.inl =>
    rw [heq] at hm ⊢
    rcases finish_outputs hpart with ⟨hn, -, hnew⟩ | ⟨-, -, hnew⟩
    · rw [hnew] at hm ⊢
      rw [busRepliesOf_concat_result, ← hpart.err hn]
      have hst := (List.mem_append.mp hm).resolve_left (hpart.result_notMem st f)
      cases List.mem_singleton.mp hst
      have hbus : i = .flush ∨ (∃ level, i = .setBrightness level) ∨ i = .configure ∨ i = .fadeTick :=
        hi.imp_right (.imp_right (.imp_right And.left))
      cases hr : o.1 with
      | never => exact absurd hr hn
      | ok | err => simp [hbus]
    · rw [hnew] at hm
      exact absurd hm (hpart.result_notMem st f)

end Sys2Proof.Machine
end

section
/-! SUPPORT. A transaction that is never answered: when a command hangs, and the state in which it waits.
60_exceptions.md R147. -/

namespace Sys2Proof.Machine

/-! ## Which commands hang -/

/-- An operation over the bus whose first transaction is never answered comes to no answer. -/
theorem BusPart.never_of_first {s : State} {o : BusReply × State} {evs : List Output} (h : BusPart s o evs)
    (hn : s.nextReply = .never) : o.1 = .never := by
  obtain ⟨bytes, hfirst⟩ := h.first
  rw [h.never, busRepliesOf, List.mem_filterMap]
  exact ⟨_, List.mem_of_head? hfirst, by rw [hn]⟩

/-- Settles O48: a command off the bus does not hang; one over the bus hangs with its transactions alone on the record
when they come to no answer; and a hung block takes turns only. -/
theorem unansweredTransactionHangsTheBlock : Obligations.UnansweredTransactionHangsTheBlock := by
  refine ⟨fun i s t hs h => ?command, fun s hs hr => ?later⟩
  case later => rw [step_of_run hr, runBlock_hung (by rwa [takeTurn_hung])]
  rw [exec_eq, Host.Outcome.next.injEq] at h
  subst h
  rw [← elapsed_iff]
  rcases afterCommand_cases i s with ⟨ho, hh, -, hi⟩ | ⟨o, evs, hpart, heq, hh, -⟩ | ⟨ho, hh, ⟨d, rfl⟩, -⟩
  · rw [hh, hs, newOutputs_of_append ho]
    exact ⟨by simp [busRepliesOf], fun hc => absurd rfl hc, fun _ hc => absurd hc hi⟩
  · rw [heq]
    rcases finish_outputs hpart with ⟨hn, hh', hnew⟩ | ⟨hn, hh', hnew⟩
    · rw [hh', hh, hs, hnew, busRepliesOf_concat_result, ← hpart.never]
      exact ⟨by simp [hn], fun hc => absurd rfl hc, fun hc => absurd (hpart.never_of_first hc) hn⟩
    · rw [hh', hnew, ← hpart.never]
      exact ⟨by simp [hn], fun _ => ⟨by simp [State.ready, hh'], observe_hung hh', hpart.noResult, hpart.lastNever hn⟩,
        by simp⟩
  · rw [hh, hs, newOutputs_of_append (evs := []) (by simpa using ho)]
    exact ⟨by simp [busRepliesOf], fun hc => absurd rfl hc, by simp⟩

/-! ## Where they wait -/

theorem finish_unanswered (before : State) {o : BusReply × State} (h : o.1 = .never) :
    finish before o = { o.2 with hung := some before.observe } := by
  rw [finish, h]
  rfl

/-- A fade step whose brightness is never answered has marked the time and stored the brightness.
42_fade_controller.md R123. -/
theorem fadeStepF_unanswered {s : State} (h : s.nextReply = .never) :
    fadeStepF s = (.never, withBus [s.cfg.brightBase ||| s.step.setWidth 8]
      { s with last := s.now, brightness := s.step }) := by
  rcases fadeStepF_cases s with ⟨-, heq⟩ | ⟨hn, -⟩ | ⟨hn, -⟩ | ⟨hn, -⟩ | ⟨hn, -⟩
  case inl =>
    rw [heq, applyBrightness_snd]
    rfl
  all_goals exact absurd h hn

/-- A fade step at the dark point whose handoff flush is never answered is still FadingOut at step 0.
42_fade_controller.md R124. -/
theorem AtDarkPoint.fadeStepF_unanswered {u a : State} (h : AtDarkPoint u)
    (ha : a = withBus [u.cfg.brightBase] { u with last := u.now, brightness := 0 }) (hn : a.nextReply = .never) :
    fadeStepF u = (.never, withBus (0x00 :: rowsOf u.buf) a) := by
  have hbuf : a.buf = u.buf := ha ▸ rfl
  rw [h.fadeStepF_eq, ← ha, ← hbuf, ← flushBuffer_snd]
  rcases handoff_cases u.nextReply a with ⟨-, heq⟩ | ⟨hne, -⟩
  · rw [heq]
    exact Prod.ext hn rfl
  · exact absurd hn hne

/-- A tick waits where its fade step does. 42_fade_controller.md R122. -/
theorem exec_fadeTick_unanswered {s w : State} (hs : s.fadeState ≠ .idle) (he : s.delay ≤ s.now - s.last)
    (h : fadeStepF s = (.never, w)) : exec .fadeTick s = .next { w with hung := some s.observe } := by
  rw [exec_eq, afterCommand_fadeTick_step hs he, h, finish_unanswered s rfl]

/-- An internal step of a blocking fade waits where its fade step does. 42_fade_controller.md R127. -/
theorem step_blocking_unanswered {s w : State} (hh : s.hung = none) (hb : s.blocking = true)
    (hr : ∀ ts, s.turns ≠ .reset :: ts) (he : (takeTurn s).delay ≤ (takeTurn s).now - (takeTurn s).last)
    (h : fadeStepF (takeTurn s) = (.never, w)) : step s = .next { w with hung := some s.observe } := by
  rw [step_of_run hr, runBlock_blocking (by rwa [takeTurn_hung]) (by rwa [takeTurn_blocking]), internalStep,
    if_pos (elapsed_iff.mpr he), h, ← takeTurn_observe s]
  rfl

/-- Settles O49: each command over the bus waits in the state after the transaction that is not answered. -/
theorem unansweredCommandsWaitWithTheirEffectsMade : Obligations.UnansweredCommandsWaitWithTheirEffectsMade := by
  refine fun s => ⟨fun hn => ⟨?flush, fun level => ⟨clampLevel level, clampLevel_toNat level, ?bright⟩, ?osc, ?tick⟩,
    ?_, ?dark, ?_⟩
  case flush => rw [exec_eq, afterCommand, finish_unanswered s hn, flushBuffer_snd]
  case bright => rw [exec_eq, afterCommand, finish_unanswered s hn, applyBrightness_snd]
  case osc =>
    rw [exec_eq, afterCommand, configureChip_eq, if_neg (by simp [hn]), finish_unanswered s hn, busWrite_snd]
    rfl
  case tick => exact fun hs he => exec_fadeTick_unanswered hs he (fadeStepF_unanswered hn)
  case dark =>
    exact fun a ha hf hs he hn hn' => exec_fadeTick_unanswered (by simp [hf]) he
      (AtDarkPoint.fadeStepF_unanswered ⟨hf, hs, he, hn⟩ ha hn')
  · rintro s1 rfl h
    refine ⟨fun h1 => ?disp, ?_⟩
    case disp =>
      rw [exec_eq, afterCommand, configureChip_eq, if_pos h, if_neg (by simp [h1]), finish_unanswered s h1, busWrite_snd]
      rfl
    rintro s2 rfl h1 h2
    rw [exec_eq, afterCommand, configureChip_eq, if_pos h, if_pos h1, finish_unanswered s h2, applyBrightness_snd]
    rfl
  · rintro u rfl hh hb hr hs he
    exact ⟨fun hn => step_blocking_unanswered hh hb hr he (fadeStepF_unanswered hn),
      fun a ha hf h0 hn hn' => step_blocking_unanswered hh hb hr he
        (AtDarkPoint.fadeStepF_unanswered ⟨hf, h0, he, hn⟩ ha hn')⟩

end Sys2Proof.Machine
end

section
/-! SUPPORT. A level set during a fade lasts until the next fade step. 70_reset_and_hazards.md R166. -/

namespace Sys2Proof.Machine

/-! ## The level is set -/

/-- The command stores the level `lv` in the brightness: setBrightness after its clamp, configure when its first two
transactions are answered `ok`. 41_device_state.md R105, R106. -/
def SetsLevel (i : Instr) (s : State) (lv : BitVec 4) : Prop :=
  (∃ level : Byte, i = .setBrightness level ∧ lv.toNat = min level.toNat 15) ∨
    (i = .configure ∧ lv = 15 ∧ s.nextReply = .ok ∧ (withBus [s.cfg.oscOnCmd] s).nextReply = .ok)

theorem SetsLevel.ne_fadeTick {i : Instr} {s : State} {lv : BitVec 4} (h : SetsLevel i s lv) : i ≠ .fadeTick := by
  obtain ⟨level, rfl, -⟩ | ⟨rfl, -⟩ := h <;> exact nofun

/-- The level stands whatever the last transaction is answered. 41_device_state.md R104. -/
theorem SetsLevel.brightness {i : Instr} {s : State} {lv : BitVec 4} (h : SetsLevel i s lv) :
    (afterCommand i s).brightness = lv := by
  obtain ⟨level, rfl, hlv⟩ | ⟨rfl, rfl, h1, h2⟩ := h
  · have hclamp : clampLevel level = lv := BitVec.eq_of_toNat_eq ((clampLevel_toNat level).trans hlv.symm)
    simp [afterCommand, finish_frame, hclamp]
  · simp [afterCommand, finish_frame, configureChip_eq, h1, h2]

/-! ## The level lasts -/

/-- The fade and the brightness stand as they stood. -/
def KeepsLevel (s t : State) : Prop := SameFade s t ∧ t.brightness = s.brightness

theorem SameFade.trans {s t u : State} (h : SameFade s t) (k : SameFade t u) : SameFade s u := by
  obtain ⟨h1, h2, h3, h4, h5, h6⟩ := h
  obtain ⟨k1, k2, k3, k4, k5, k6⟩ := k
  exact ⟨k1.trans h1, k2.trans h2, k3.trans h3, k4.trans h4, k5.trans h5, k6.trans h6⟩

theorem KeepsLevel.trans {s t u : State} (h : KeepsLevel s t) (k : KeepsLevel t u) : KeepsLevel s u :=
  ⟨h.1.trans k.1, k.2.trans h.2⟩

/-- The command, issued at the time `p.1`, sets no level and makes no step of the fade of `s`. -/
def LeavesLevel (s : State) (p : Word × Instr) : Prop :=
  p.2 ≠ .configure ∧ (∀ level, p.2 ≠ .setBrightness level) ∧ (p.2 = .fadeTick → ¬ s.delay ≤ p.1 - s.last)

theorem LeavesLevel.of_sameFade {s t : State} {p : Word × Instr} (hp : LeavesLevel s p) (h : SameFade s t) :
    LeavesLevel t p := by
  obtain ⟨-, -, hlast, hdelay, -⟩ := h
  rwa [LeavesLevel, hlast, hdelay]

/-- An early tick does nothing, and of the other commands only an arming moves the fade. 42_fade_controller.md R122,
R130. -/
theorem LeavesLevel.keepsLevel {s : State} {p : Word × Instr} (hp : LeavesLevel s p) (hs : s.fadeState ≠ .idle) :
    KeepsLevel s (afterCommand p.2 { s with now := p.1 }) := by
  obtain ⟨hconf, hset, htick⟩ := hp
  have hx := exec_eq p.2 { s with now := p.1 }
  by_cases ht : p.2 = .fadeTick
  · rw [ht, afterCommand_fadeTick_early (htick ht)]
    exact ⟨⟨rfl, rfl, rfl, rfl, rfl, rfl⟩, rfl⟩
  · obtain ⟨hfade, -⟩ := onlyTicksMoveAnArmedFade p.2 { s with now := p.1 } _ hs ht hx
    obtain ⟨-, hbright, -⟩ := elementsAreWrittenOnlyByTheirCommands _ _ _ hx
    refine ⟨hfade, not_not.mp (mt hbright ?_)⟩
    rintro (⟨level, hl⟩ | hc | hc)
    · exact hset level hl
    · exact hconf hc
    · exact ht hc

theorem issueAt_cons (p : Word × Instr) (js : List (Word × Instr)) (s : State) :
    issueAt (p :: js) s = issueAt js (afterCommand p.2 { s with now := p.1 }) := by
  rw [issueAt, exec_eq]

theorem keepsLevel_issueAt (js : List (Word × Instr)) : ∀ {s : State}, s.fadeState ≠ .idle →
    (∀ p ∈ js, LeavesLevel s p) → KeepsLevel s (issueAt js s) := by
  induction js with
  | nil => exact fun _ _ => ⟨⟨rfl, rfl, rfl, rfl, rfl, rfl⟩, rfl⟩
  | cons p js ih =>
    intro s hs hjs
    have hfirst := (hjs p (.head _)).keepsLevel hs
    have hrest := ih (by rwa [hfirst.1.1]) fun q hq => (hjs q (.tail _ hq)).of_sameFade hfirst.1
    rw [issueAt_cons]
    exact hfirst.trans hrest

/-! ## The next fade step overwrites it -/

/-- In the next-state table only the step at level 15 ends a fade. 42_fade_controller.md R120. -/
theorem eq_fifteen_of_nextPosition_idle {p : FadePosition} (h : (nextPosition p).1 = .idle) (hp : p.1 ≠ .idle) :
    p.2 = 15 := by
  unfold nextPosition at h
  split_ifs at h with hf h0 h15
  · exact absurd h hp
  · exact h15
  · exact absurd h hp

/-- A fade step that ends the fade is the one at level 15, whatever it is answered. 42_fade_controller.md R123. -/
theorem fadeStepF_ends_at_fifteen {s : State} (hs : s.fadeState ≠ .idle) (h : (fadeStepF s).2.fadeState = .idle) :
    s.step = 15 := by
  by_cases hn : (fadeStepF s).1 = .never
  · exact absurd ((fadeStepF_fadeState_of_never hn).symm.trans h) hs
  · have hpos : (nextPosition s.position).1 = .idle := fadeStepF_position hn ▸ h
    exact eq_fifteen_of_nextPosition_idle hpos hs

/-- A tick at its time leaves the level of its fade step, which is 15 if the fade is over. 42_fade_controller.md R122,
R123. -/
theorem tick_overwrites_level {s : State} (hs : s.fadeState ≠ .idle) (he : s.delay ≤ s.now - s.last) :
    (afterCommand .fadeTick s).brightness = s.step ∧
      ((afterCommand .fadeTick s).fadeState = .idle → s.step = 15) := by
  obtain ⟨-, hbright, hfade, -⟩ := finish_frame s (fadeStepF s)
  rw [afterCommand_fadeTick_step hs he, hbright, hfade]
  exact ⟨(fadeStepF_applies s).2, fadeStepF_ends_at_fifteen hs⟩

/-- Settles O43: the level is set with the fade left alone, every command of the list keeps both, so the tick finds the
fade of `s` and applies its step. -/
theorem fadeStepOverwritesASetLevel : Obligations.FadeStepOverwritesASetLevel := by
  intro s t i lv hs h hi js hjs
  have hset : SetsLevel i s lv := hi
  obtain ⟨hfade, -⟩ := onlyTicksMoveAnArmedFade i s t hs hset.ne_fadeTick h
  rw [exec_eq, Host.Outcome.next.injEq] at h
  have hkeeps : KeepsLevel t (issueAt js t) :=
    keepsLevel_issueAt js (by rwa [hfade.1]) fun p hp => LeavesLevel.of_sameFade (hjs p hp) hfade
  refine ⟨hkeeps.2.trans (h ▸ hset.brightness), fun now u he hu => ?tick⟩
  case tick =>
    obtain ⟨hstate, hstep, hlast, hdelay, -⟩ := hfade.trans hkeeps.1
    rw [exec_eq, Host.Outcome.next.injEq] at hu
    obtain ⟨hbright, hend⟩ := tick_overwrites_level (s := { issueAt js t with now := now })
      (by rwa [hstate]) (by rwa [hlast, hdelay])
    rw [hu, hstep] at hbright
    rw [hu, hstep] at hend
    exact ⟨hbright, fun hidle => hbright.trans (hend hidle)⟩

end Sys2Proof.Machine
end

section
/-! SUPPORT. The time input going backwards, and the reset event. 70_reset_and_hazards.md R160, R168. -/

namespace Sys2Proof.Machine

/-- A time `k` units before the last transition is 2^32 - k units after it, modulo 2^32. 70_reset_and_hazards.md
R168. -/
theorem toNat_sub_ofNat_sub_self (x : Word) {k : Nat} (h0 : 0 < k) (hk : k < 2 ^ 32) :
    (x - BitVec.ofNat 32 k - x).toNat = 2 ^ 32 - k := by
  rw [BitVec.toNat_sub, BitVec.toNat_sub, BitVec.toNat_ofNat]
  omega

/-- Settles O45: the elapsed test compares the delay with the modular difference. -/
theorem timeGoingBackwardsLooksLikeALongTime : Obligations.TimeGoingBackwardsLooksLikeALongTime := by
  intro s k h0 hk hnow
  rw [elapsed_iff, BitVec.le_def, hnow, toNat_sub_ofNat_sub_self s.last h0 hk]

/-- Settles O55: a step with a reset in its turn ends in `resetBlock`, from any state. -/
theorem resetEventRestoresEveryElement : Obligations.ResetEventRestoresEveryElement := fun s _ h =>
  ⟨resetBlock (takeTurn s), step_of_reset h, rfl, rfl, rfl, rfl, rfl, rfl, rfl, rfl, rfl, takeTurn_outputs s⟩

end Sys2Proof.Machine
end
